-- ==== Sys2Proof/Config.lean ====
section
/-! DEFINITION. The implementation parameters of spec/00_scope.md R7, at the values the spec takes by
default. They are the parameters of `State.reset` only: a State carries its own slot count (the length
of its slot file) and its own capacities, and no definition of the machine reads this file again, so that
every statement about a State is about every unit of the family. -/

namespace Sys2Proof.Config

/-- `NSLOT`, the number of image slots: 2 to 16, default 2 (R7, U15). -/
def nslot : Nat := 2

/-- `PIXCAP`, the pixels one slot can hold; `none` is the spec's unbounded default (R7, R74, U3). -/
def pixcap : Option Nat := none

/-- `IBUFCAP`, the bytes the input buffer can hold; `none` is the spec's unbounded default (R7, R74, U3). -/
def ibufcap : Option Nat := none

end Sys2Proof.Config
end

