-- ==== Sys2Proof/Word.lean ====
section
/-! DEFINITION. The fixed widths of the unit (spec/00_scope.md R6, R11): every quantity is an unsigned
bit vector; there is no signed quantity anywhere. -/

namespace Sys2Proof

/-- A byte of a wire stream, of the input buffer, or of a stream port (R13, R61). -/
abbrev Byte := BitVec 8

/-- One colour or alpha channel of a pixel, u16 (R6, R22). -/
abbrev Half := BitVec 16

/-- A host register, an image dimension, a factor or a command word, u32 (R6, R30). -/
abbrev Word := BitVec 32

/-- A product of MUL64, a block accumulator or an operand of DIV64, u64 (R180). -/
abbrev Dword := BitVec 64

/-- A slot index of the command word, u4 (R81). -/
abbrev SlotIdx := BitVec 4

end Sys2Proof
end

