-- ==== Sys2Proof/Syntax.lean ====
section
/-! DEFINITION. The commands of the unit, one constructor per row of spec/opcode_table.json (R82). The
command word holds slot indices only; the 32-bit operands come from ARG0 and ARG1 (R81, R84). -/

namespace Sys2Proof

/-- A command. Its fields are the slot fields of the command word that the command uses (R82). -/
inductive Instr where
  /-- `NEW d`, OPC 0x01: the image constructor (R110). -/
  | new (dst : SlotIdx)
  /-- `DECODE d`, OPC 0x02: the farbfeld frame parser (R120). -/
  | decode (dst : SlotIdx)
  /-- `ENCODE s`, OPC 0x03: the farbfeld frame serializer (R140). -/
  | encode (src : SlotIdx)
  /-- `PIXELIZE d, s`, OPC 0x04: the block-averaging downsampler (R155). -/
  | pixelize (dst src : SlotIdx)
deriving DecidableEq, Repr

end Sys2Proof
end

