-- ==== Sys2Proof/WellFormed.lean ====
section
/-! DEFINITION. When a command whose word selected a row of R83 is legal (spec/30_encoding.md R88 (d), (e)):
every slot it uses exists, and PIXELIZE does not name one slot twice. R88 (a) to (c) are the mask and match
of the row and so are the decoder's (Decode.lean). -/

namespace Sys2Proof

/-- R88 (d), (e), for a unit with `nslot` slots. Legality depends on nothing else: not on ARG0, ARG1, the
slots' contents or STATUS. -/
def Instr.legal (nslot : Nat) : Instr → Bool
  | .new dst => decide (dst.toNat < nslot)
  | .decode dst => decide (dst.toNat < nslot)
  | .encode src => decide (src.toNat < nslot)
  | .pixelize dst src =>
    decide (dst.toNat < nslot) && decide (src.toNat < nslot) && decide (dst ≠ src)

end Sys2Proof
end

