-- ==== Sys2Proof/Decode.lean ====
section
/-! DEFINITION. The command word, format C (spec/30_encoding.md R81 to R83): the decoder, total on all 2^32
words, and the encoder, both written from the table of R82 and R83. -/

namespace Sys2Proof

/-- Field `OPC` of a command word, bits 7:0 (R81). -/
def wordOpc (w : Word) : Byte := w.extractLsb' 0 8

/-- Field `DST` of a command word, bits 11:8 (R81). -/
def wordDst (w : Word) : SlotIdx := w.extractLsb' 8 4

/-- Field `SRC` of a command word, bits 15:12 (R81). -/
def wordSrc (w : Word) : SlotIdx := w.extractLsb' 12 4

/-- One row of the table of R83: a word selects it when `w AND mask = want`. -/
structure OpcodeRow where
  mask : Word
  want : Word
deriving DecidableEq, Repr

/-- Does `w` select the row (R83)? -/
def OpcodeRow.selects (r : OpcodeRow) (w : Word) : Bool := w &&& r.mask == r.want

/-- R83, row NEW. -/
def rowNew : OpcodeRow := ⟨0xFFFFF0FF, 0x00000001⟩
/-- R83, row DECODE. -/
def rowDecode : OpcodeRow := ⟨0xFFFFF0FF, 0x00000002⟩
/-- R83, row ENCODE. -/
def rowEncode : OpcodeRow := ⟨0xFFFF0FFF, 0x00000003⟩
/-- R83, row PIXELIZE. -/
def rowPixelize : OpcodeRow := ⟨0xFFFF00FF, 0x00000004⟩

/-- The table of R83, in its order. -/
def opcodeRows : List OpcodeRow := [rowNew, rowDecode, rowEncode, rowPixelize]

/-- The command a word stands for, `none` for a word that selects no row: a reserved operation code, or a
nonzero reserved or unused field (R83, R88 (a) to (c), R89). -/
def decode (w : Word) : Option Instr :=
  if rowNew.selects w then some (.new (wordDst w))
  else if rowDecode.selects w then some (.decode (wordDst w))
  else if rowEncode.selects w then some (.encode (wordSrc w))
  else if rowPixelize.selects w then some (.pixelize (wordDst w) (wordSrc w))
  else none

/-- The command a word stands for if the word is legal in a unit with `nslot` slots (R88). -/
def decodeLegal (nslot : Nat) (w : Word) : Option Instr :=
  (decode w).filter (fun i => i.legal nslot)

/-- Operation code of a command (R82). -/
def Instr.opc : Instr → Byte
  | .new _ => 0x01
  | .decode _ => 0x02
  | .encode _ => 0x03
  | .pixelize _ _ => 0x04

/-- Field DST of a command: 0 where the command does not use it (R82). -/
def Instr.dstField : Instr → SlotIdx
  | .new dst => dst
  | .decode dst => dst
  | .encode _ => 0
  | .pixelize dst _ => dst

/-- Field SRC of a command: 0 where the command does not use it (R82). -/
def Instr.srcField : Instr → SlotIdx
  | .new _ => 0
  | .decode _ => 0
  | .encode src => src
  | .pixelize _ src => src

/-- The command word of a command: reserved bits 31:16 zero, then SRC, DST and OPC (R81). -/
def encode (i : Instr) : Word := (0 : BitVec 16) ++ i.srcField ++ i.dstField ++ i.opc

/-- The word of an opcode-table row of `nbits` bits whose value is `w`: the bits above `nbits` are 0. -/
def tableWord (nbits w : Nat) : Word := BitVec.ofNat 32 (w % 2 ^ nbits)

/-- What the decoder reads from an opcode-table word. A command is one 32-bit word (R80: one command
length), so the word is given to the decoder as it stands. -/
def decodeTableWord (nbits w : Nat) : Option Instr := decode (tableWord nbits w)

end Sys2Proof
end

