-- ==== Sys2Proof/Machine/State.lean ====
section
/-! DEFINITION. The state of the unit (spec/10_state.md R20), the agents outside it that a run needs
(spec/00_scope.md R9: host, source, sink), the reasons a step can stop, and the state after reset (R46). -/

namespace Sys2Proof.Machine

/-- A pixel: four independent u16 channels; every combination is legal (R14, R22). -/
structure Pixel where
  r : Half
  g : Half
  b : Half
  a : Half
deriving DecidableEq, Repr

/-- An image: its declared dimensions and its pixels in row-major order (R14, R23). The number of pixels is
a quantity of its own, `pixels.length` (R24: `plen`). -/
structure Image where
  width : Word
  height : Word
  pixels : List Pixel
deriving DecidableEq, Repr

/-- The constant EMPTY of R14: the 0×0 image, the reset value of a slot (R21). -/
def Image.empty : Image := ⟨0, 0, []⟩

/-- The constant OPAQUE_BLACK of R14. -/
def Pixel.opaqueBlack : Pixel := ⟨0, 0, 0, 0xFFFF⟩

/-- The sequencer phase `PH` (R20, R42). -/
inductive Phase where
  | idle
  | newRun
  | decRead
  | decParse
  | encWrite
  | pixRun
deriving DecidableEq, Repr

/-- The stored fields of `STATUS` (R20, R33). BUSY is not stored: it is `PH ≠ IDLE` (R34). -/
structure Status where
  done : Bool
  err : Bool
  ovr : Bool
  kind : BitVec 4
deriving DecidableEq, Repr

/-- The latch `L`: the operands taken at command issue (R20, R38). -/
structure Latch where
  opc : Byte
  dst : SlotIdx
  src : SlotIdx
  a0 : Word
  a1 : Word
deriving DecidableEq, Repr

/-- The four block accumulators `ACC.r` to `ACC.a`, 64 bits each (R20, R28). -/
structure Accs where
  r : Dword
  g : Dword
  b : Dword
  a : Dword
deriving DecidableEq, Repr

/-- Finite storage of a physical unit (R7, R74, U3): parameters, not state of the spec (R8); `none` is
unbounded. -/
structure Caps where
  pixcap : Option Nat
  ibufcap : Option Nat
deriving DecidableEq, Repr

/-- One transfer the source offers on the input port: `in_kind` and `in_data` (R62, format T of R80). -/
structure Beat where
  kind : BitVec 2
  data : Byte
deriving DecidableEq, Repr

/-- The sink's answer to a byte (R64). -/
inductive Answer where
  | ok
  | fail
deriving DecidableEq, Repr

/-- The sink agent (R9, R64). -/
structure Sink where
  /-- The answers it will give to the next bytes of the ENCODE in progress, in order. -/
  answers : List Answer
  /-- What it answers when `answers` is used up; `none`: it does not take the byte, `out_ready = 0`. -/
  rest : Option Answer
  /-- The bytes it has answered OK to, oldest first (R65). -/
  taken : List Byte
  /-- The `answers` it will begin each later ENCODE with, the next ENCODE first; none listed: empty. -/
  plans : List (List Answer)
deriving DecidableEq, Repr

/-- One action of the host agent (R9, R10, R91). -/
inductive HostOp where
  /-- `RD`: a 32-bit read at a byte offset from the unit's base. -/
  | read (off : Nat)
  /-- `WR`: a 32-bit write at a byte offset from the unit's base. -/
  | write (off : Nat) (value : Word)
  /-- An access narrower than 32 bits, which the interface does not offer (R58, U9). -/
  | narrow (off : Nat)
  /-- `WAIT`: repeats `RD STATUS` until the value read has DONE set; one read a step (R91). -/
  | waitDone
deriving DecidableEq, Repr

/-- Who takes the next step (R10). `unit` is the unit's own next step: by its phase that is the
consumption of an input token (with the source), the transfer of an output byte (with the sink), or an
internal sequencer step; a phase enables exactly one of them (R42). `reset` is a reset step (R230). -/
inductive Turn where
  | host
  | unit
  | reset
deriving DecidableEq, Repr

/-- The whole machine: the unit's state, each field of R20, and then the model's own fields, which are the
unit's parameters (R7) and the agents outside the unit (R8, R9: inputs of the step relation, held as lists
the step reads). -/
structure State where
  /-- The image slots `IMG[0..NSLOT-1]`; its length is `NSLOT` (R21). -/
  img : List Image
  /-- `ARG0` (R27). -/
  arg0 : Word
  /-- `ARG1` (R27). -/
  arg1 : Word
  /-- `STATUS`, but for BUSY (R33, R34). -/
  status : Status
  /-- `PH` (R42). -/
  ph : Phase
  /-- `L` (R38). -/
  l : Latch
  /-- `IBUF` (R43). -/
  ibuf : List Byte
  /-- `OPOS` (R44). -/
  opos : Nat
  /-- `ACC` (R28). -/
  acc : Accs
  /-- MODEL'S OWN: the unit's capacities (R7). -/
  caps : Caps
  /-- MODEL'S OWN: what the host will do, in order. -/
  hostq : List HostOp
  /-- MODEL'S OWN: the values the host has read, oldest first. -/
  seen : List Word
  /-- MODEL'S OWN: what the source offers, in order; its head is on the input port (R62, R63). -/
  beats : List Beat
  /-- MODEL'S OWN: the sink agent (R64). -/
  sink : Sink
  /-- MODEL'S OWN: whose turn it is, in order; empty: the default order of `step`. -/
  turns : List Turn
deriving DecidableEq, Repr

/-- Why the machine stops with a fault. None of these can be reached from reset: each guards an access the
spec says is undefined. -/
inductive Fault where
  /-- Raised by a command whose latched slot index is not below NSLOT: the slot does not exist (R21). A legal
  issue never latches such an index (R88 (d)). Safe. -/
  | slotOutOfRange
  /-- Raised by PIXELIZE when its source slot holds fewer pixels than its dimensions declare, so that a
  `PixRead` falls outside `i < plen` (R51, R161). No slot ever does (R24). Safe. -/
  | pixelOutOfRange
deriving DecidableEq, Repr

/-- Why the model gives a step no meaning. -/
inductive Refusal where
  /-- Raised by an arm of `exec` whose instruction has no meaning yet. Safe. -/
  | notModelled (mnemonic : String)
  /-- Raised by PIXELIZE when some exact block sum is 2^64 or more: the spec gives the run no meaning
  (R170, R186, U1, D21). Safe. -/
  | blockSumOverflow
  /-- Raised by NEW, DECODE and PIXELIZE when the result has more than PIXCAP pixels, in a unit whose PIXCAP
  is finite (R74, U3, D3). Safe. -/
  | pixcapExceeded
  /-- Raised by DECODE when a byte would make IBUF longer than IBUFCAP, in a unit whose IBUFCAP is finite
  (R74, U3, D3). Safe. -/
  | ibufcapExceeded
  /-- Raised by DECODE when it consumes a transfer of the reserved `in_kind = 3`, which a conforming source
  never offers (R62, U6, D30). Safe. -/
  | reservedToken
  /-- Raised by a host access that is not aligned to 4 bytes: not part of the interface (R58, U9, D4). Safe. -/
  | unalignedAccess
  /-- Raised by a host access narrower than 32 bits: not part of the interface (R58, U9, D4). Safe. -/
  | narrowAccess
deriving DecidableEq, Repr

/-- How a step of this machine ends. -/
abbrev Out := Host.Outcome State Fault Refusal

/-- STATUS after reset: 0 (R46). -/
def Status.zero : Status := ⟨false, false, false, 0⟩

/-- `L` after reset: all fields 0 (R46). -/
def Latch.zero : Latch := ⟨0, 0, 0, 0, 0⟩

/-- The accumulators after reset and at the start of a block: 0 (R28, R46). -/
def Accs.zero : Accs := ⟨0, 0, 0, 0⟩

/-- The reset state of a unit with `nslot` slots and the given capacities, with agents that hold nothing:
every field of R20 at its value of the table of R46. -/
def State.resetOf (nslot : Nat) (caps : Caps) : State where
  img := List.replicate nslot Image.empty
  arg0 := 0
  arg1 := 0
  status := Status.zero
  ph := .idle
  l := Latch.zero
  ibuf := []
  opos := 0
  acc := Accs.zero
  caps := caps
  hostq := []
  seen := []
  beats := []
  sink := ⟨[], none, [], []⟩
  turns := []

/-- The machine right after reset (R46), at the default parameters of R7. -/
def State.reset : State := State.resetOf Config.nslot ⟨Config.pixcap, Config.ibufcap⟩

end Sys2Proof.Machine
end

