-- ==== Sys2Proof/Machine/Arith.lean ====
section
/-! DEFINITION. The arithmetic units (spec/45_arithmetic_units.md R180): MUL64, DIV32, the four accumulators and
DIV64. All are unsigned; none rounds, saturates or wraps in a run the spec gives a meaning. -/

namespace Sys2Proof.Machine

/-- MUL64: the exact product of two zero-extended u32 (R181). -/
def mul64 (a b : Word) : Dword := a.setWidth 64 * b.setWidth 64

/-- DIV32, quotient (R182). No rule evaluates it with a zero divisor (R183). -/
def div32 (a b : Word) : Word := a / b

/-- DIV32, remainder (R182). No rule evaluates it with a zero divisor (R183). -/
def mod32 (a b : Word) : Word := a % b

/-- DIV64 and the selection of bits 15:0 of its quotient (R160, R185). -/
def div64 (sum area : Dword) : Half := (sum / area).extractLsb' 0 16

/-- One accumulation step on all four lanes: `ACC.c <- ACC.c + zext_64(p.c)` (R159, R186, R188). -/
def Accs.add (acc : Accs) (p : Pixel) : Accs :=
  ⟨acc.r + p.r.setWidth 64, acc.g + p.g.setWidth 64,
   acc.b + p.b.setWidth 64, acc.a + p.a.setWidth 64⟩

/-- The accumulators after a block: cleared, then every pixel of the block added (R155, R159). -/
def accumulate (block : List Pixel) : Accs := block.foldl Accs.add Accs.zero

/-- The exact sum, a natural, of one channel over a block (R159, R170). -/
def exactSum (channel : Pixel → Half) (block : List Pixel) : Nat :=
  (block.map (fun p => (channel p).toNat)).sum

/-- Is the exact sum of every channel of the block below 2^64? Only then has the run a meaning (R170, D21). -/
def sumsFit (block : List Pixel) : Bool :=
  decide (exactSum (·.r) block < 2 ^ 64) && decide (exactSum (·.g) block < 2 ^ 64)
    && decide (exactSum (·.b) block < 2 ^ 64) && decide (exactSum (·.a) block < 2 ^ 64)

/-- The output pixel of a block: the floor average of each lane, the same `area` for all four (R160, R188). -/
def averagePixel (area : Dword) (block : List Pixel) : Pixel :=
  let acc := accumulate block
  ⟨div64 acc.r area, div64 acc.g area, div64 acc.b area, div64 acc.a area⟩

end Sys2Proof.Machine
end

