-- ==== Sys2Proof/Machine/Flags.lean ====
section
/-! DEFINITION. `STATUS` (spec/10_state.md R33 to R37) and the error kinds it reports
(spec/60_exceptions.md R200). The unit has no other flag (R29). -/

namespace Sys2Proof.Machine

/-- The error kinds (R200). -/
inductive ErrKind where
  | io
  | headerToShort
  | farbfeldPatternNotFound
  | mismatchedLength
  | nonExactMultiple
  | illegalCommand
deriving DecidableEq, Repr

/-- The code of an error kind, the value of `STATUS.KIND` (R200). -/
def ErrKind.code : ErrKind → BitVec 4
  | .io => 1
  | .headerToShort => 2
  | .farbfeldPatternNotFound => 3
  | .mismatchedLength => 4
  | .nonExactMultiple => 5
  | .illegalCommand => 8

/-- `STATUS.BUSY`: 1 exactly when `PH ≠ IDLE` (R34). -/
def State.busy (s : State) : Bool := s.ph != .idle

/-- What a read of `STATUS` returns: `zext_32(KIND ++ OVR ++ ERR ++ DONE ++ BUSY)` (R33). -/
def State.statusWord (s : State) : Word :=
  (s.status.kind ++ BitVec.ofBool s.status.ovr ++ BitVec.ofBool s.status.err
    ++ BitVec.ofBool s.status.done ++ BitVec.ofBool s.busy).setWidth 32

/-- STATUS at the issue of a legal command: DONE, ERR and KIND cleared, OVR kept (R35, R36, R38). -/
def Status.atIssue (f : Status) : Status := { f with done := false, err := false, kind := 0 }

/-- STATUS at a successful completion: DONE set; ERR and KIND stay as issue left them (R209). -/
def Status.succeeded (f : Status) : Status := { f with done := true }

/-- STATUS at a completion with error kind `k`, and at the refusal of an illegal word (R36, R206, R210). -/
def Status.failed (f : Status) (k : ErrKind) : Status :=
  { f with done := true, err := true, kind := k.code }

/-- STATUS after a CMD write was dropped: OVR set, all else kept (R37). -/
def Status.overrun (f : Status) : Status := { f with ovr := true }

end Sys2Proof.Machine
end

