-- ==== Sys2Proof/Machine/Operands.lean ====
section
/-! DEFINITION. Operand assembly: the big-endian primitives (spec/00_scope.md R15), the pixel chunk, format P
(spec/30_encoding.md R86), the tokens of the input port, format T, and the answers of the sink, format A
(spec/20_memory.md R62, R64), and the effective addresses of PIXELIZE (R51, R72). -/

namespace Sys2Proof.Machine

/-- `be16(b0, b1)` (R15): the first byte is the more significant. -/
def be16 (b0 b1 : Byte) : Half := b0 ++ b1

/-- `be32(b0, b1, b2, b3)` (R15): the first byte is the most significant. -/
def be32 (b0 b1 b2 b3 : Byte) : Word := b0 ++ b1 ++ b2 ++ b3

/-- `enc16(v) = [v[15:8], v[7:0]]` (R15). -/
def enc16 (v : Half) : List Byte := [v.extractLsb' 8 8, v.extractLsb' 0 8]

/-- `enc32(v) = [v[31:24], v[23:16], v[15:8], v[7:0]]` (R15). -/
def enc32 (v : Word) : List Byte :=
  [v.extractLsb' 24 8, v.extractLsb' 16 8, v.extractLsb' 8 8, v.extractLsb' 0 8]

/-- The byte at offset `i` of a buffer. Every rule reads a buffer in range only (R52), so the 0 of an offset
past its end is never used. -/
def byteAt (buf : List Byte) (i : Nat) : Byte := buf.getD i 0

/-- The u32 field at byte offset `o` of a buffer (R85). -/
def field32 (buf : List Byte) (o : Nat) : Word :=
  be32 (byteAt buf o) (byteAt buf (o + 1)) (byteAt buf (o + 2)) (byteAt buf (o + 3))

/-- The u16 channel at byte offset `o` of a buffer (R86). -/
def field16 (buf : List Byte) (o : Nat) : Half := be16 (byteAt buf o) (byteAt buf (o + 1))

/-- The pixel of the chunk at byte offset `o` of a buffer, format P (R86, R73). -/
def pixelAt (buf : List Byte) (o : Nat) : Pixel :=
  ⟨field16 buf o, field16 buf (o + 2), field16 buf (o + 4), field16 buf (o + 6)⟩

/-- The chunk of a pixel, format P (R86). -/
def Pixel.toChunk (p : Pixel) : List Byte := enc16 p.r ++ enc16 p.g ++ enc16 p.b ++ enc16 p.a

/-- A token of the input port (R62). -/
inductive Token where
  | data (b : Byte)
  | eos
  | err
deriving DecidableEq, Repr

/-- The token a transfer delivers; `none` for the reserved kind 3 (R62). `in_data` matters to DATA only. -/
def Beat.token (t : Beat) : Option Token :=
  if t.kind = 0 then some (.data t.data)
  else if t.kind = 1 then some .eos
  else if t.kind = 2 then some .err
  else none

/-- The transfer of a `DATA(b)` token (R62). -/
def Beat.dataOf (b : Byte) : Beat := ⟨0, b⟩
/-- The transfer of an `EOS` token (R62). -/
def Beat.eos : Beat := ⟨1, 0⟩
/-- The transfer of an `ERR` token (R62). -/
def Beat.err : Beat := ⟨2, 0⟩

/-- The answer `out_fail` stands for (R64): 0 is OK, 1 is FAIL. -/
def Answer.ofBit (outFail : BitVec 1) : Answer := if outFail = 0 then .ok else .fail

/-- The sink's answer to the byte now offered, and the sink after it has given that answer; `none` while it
does not take the byte (`out_ready = 0`, R64). -/
def Sink.next (k : Sink) : Option (Answer × Sink) :=
  match k.answers with
  | a :: as => some (a, { k with answers := as })
  | [] => k.rest.map (fun a => (a, k))

/-- The sink at the issue of an ENCODE, which is where it sees `out_valid` rise (R64): the answers left over from the
ENCODE before are dropped, and those planned for this one begin (R91, log entry 18). -/
def Sink.start (k : Sink) : Sink := { k with answers := k.plans.headD [], plans := k.plans.tail }

/-- The index of column `x*f + dx`, row `y*f + dy` in an image of width `w` (R51, R72). -/
def blockIndex (w f x y dx dy : Nat) : Nat := (x * f + dx) + (y * f + dy) * w

/-- The indices of the `f × f` block of output pixel `(x, y)`, in the order of the loops of R155. -/
def blockIndices (w f x y : Nat) : List Nat :=
  (List.range f).flatMap (fun dy => (List.range f).map (fun dx => blockIndex w f x y dx dy))

/-- The output pixels `(x, y)` of an `nw × nh` image, row-major, the order of the loops of R155. -/
def outCoords (nw nh : Nat) : List (Nat × Nat) :=
  (List.range nh).flatMap (fun y => (List.range nw).map (fun x => (x, y)))

end Sys2Proof.Machine
end

