-- ==== Sys2Proof/Machine/Wire.lean ====
section
/-! DEFINITION. The farbfeld wire format (spec/20_memory.md R55): the serializer `EncStream`
(spec/42_codec_encode.md R144) and the frame parser of phase DEC_PARSE (spec/41_codec_decode.md R120). -/

namespace Sys2Proof.Machine

/-- The constant MAGIC, the ASCII letters `farbfeld` (R56). -/
def magic : List Byte := [0x66, 0x61, 0x72, 0x62, 0x66, 0x65, 0x6C, 0x64]

/-- The header of an image, format H (R85). -/
def Image.header (im : Image) : List Byte := magic ++ enc32 im.width ++ enc32 im.height

/-- `EncStream(I)` (R144): the header, then one chunk per pixel PRESENT, with no check against the declared
dimensions (R145). -/
def encStream (im : Image) : List Byte := im.header ++ im.pixels.flatMap Pixel.toChunk

/-- What the frame parser answers. -/
inductive Parsed where
  | image (im : Image)
  | error (k : ErrKind)
deriving DecidableEq, Repr

/-- The frame parser, on the whole buffered stream: length, then magic, then chunk count, the first test that
fails giving the kind (R120, R131); bytes past the last declared chunk affect nothing (R129). -/
def parseFrame (buf : List Byte) : Parsed :=
  if buf.length < 16 then .error .headerToShort
  else if buf.take 8 ≠ magic then .error .farbfeldPatternNotFound
  else
    let w := field32 buf 8
    let h := field32 buf 12
    let pixNum := (mul64 w h).toNat
    let avail := (buf.length - 16) / 8
    if avail < pixNum then .error .mismatchedLength
    else .image ⟨w, h, (List.range pixNum).map (fun i => pixelAt buf (16 + 8 * i))⟩

end Sys2Proof.Machine
end

