-- ==== Sys2Proof/Machine/Ops.lean ====
section
/-! DEFINITION. The named operations the meanings share: the slot file, the latch, command issue
(spec/10_state.md R38), the two completions (spec/60_exceptions.md R209, R210, the unit's trap entry), the
refusal of a command word (R206), the drop of one (R37), the register map (R30), the stream ports
(spec/20_memory.md R62 to R65) and reset (spec/70_reset_and_hazards.md R230). -/

namespace Sys2Proof.Machine

/-- `NSLOT`: how many image slots the unit has (R21). -/
def State.nslot (s : State) : Nat := s.img.length

/-- A read of a slot, `IMG[i]`; `none` where the unit has no such slot (R21). -/
def State.slot (s : State) (i : SlotIdx) : Option Image := s.img[i.toNat]?

/-- Is a count within a capacity? Always, where the capacity is unbounded (R74). -/
def within (cap : Option Nat) (n : Nat) : Bool :=
  match cap with
  | none => true
  | some c => decide (n ≤ c)

/-! ### Phases -/

/-- The command in progress, from the phase and the latch; `none` while idle (R42). The command uses only
`L`, never the command word again (R38). -/
def State.running (s : State) : Option Instr :=
  match s.ph with
  | .idle => none
  | .newRun => some (.new s.l.dst)
  | .decRead => some (.decode s.l.dst)
  | .decParse => some (.decode s.l.dst)
  | .encWrite => some (.encode s.l.src)
  | .pixRun => some (.pixelize s.l.dst s.l.src)

/-- The phase a command's issue enters (R38, R42). -/
def firstPhase : Instr → Phase
  | .new _ => .newRun
  | .decode _ => .decRead
  | .encode _ => .encWrite
  | .pixelize _ _ => .pixRun

/-! ### Issue, refusal and drop of a command word -/

/-- The issue of a legal command (R38): the latch takes the fields of the word and the ARG registers, STATUS
is cleared but for OVR, and the first phase is entered. A meaning adds what its own command clears. -/
def State.issue (s : State) (i : Instr) : State :=
  { s with
    l := ⟨i.opc, i.dstField, i.srcField, s.arg0, s.arg1⟩
    status := s.status.atIssue
    ph := firstPhase i }

/-- Completion with an error, `fail K` (R210): PH idle and STATUS reporting the kind; no slot changes. Control
goes nowhere: there is no handler, and nothing to acknowledge afterwards (R214). The refusal of an illegal
command word is the same report, of kind IllegalCommand, made while PH is idle already (R31 (b), R206). -/
def State.fail (s : State) (k : ErrKind) : State :=
  { s with ph := .idle, status := s.status.failed k }

/-- Successful completion, `done`, of a command that commits no slot (R209). -/
def State.succeed (s : State) : State := { s with ph := .idle, status := s.status.succeeded }

/-- `IBUF <- []`, when a DECODE is issued or ends (R38, R43). -/
def State.emptyBuffer (s : State) : State := { s with ibuf := [] }

/-- Successful completion, `done`, with the commit of the destination slot in the same step (R209). Stops
where there is no such slot (R21), or where the image exceeds a finite PIXCAP (R74, U3). -/
def State.commit (s : State) (dst : SlotIdx) (im : Image) : Out :=
  if dst.toNat < s.nslot then
    if within s.caps.pixcap im.pixels.length then
      .next { s.succeed with img := s.img.set dst.toNat im }
    else .refused .pixcapExceeded
  else .fault .slotOutOfRange

/-- A CMD write while BUSY = 1: dropped, OVR set (R31 (a), R37). -/
def State.drop (s : State) : State := { s with status := s.status.overrun }

/-! ### Registers -/

/-- What a 32-bit aligned read of byte offset `off` returns (R30, R31, R39, R45). -/
def State.readReg (s : State) (off : Nat) : Word :=
  if off = 0x00 then 0
  else if off = 0x04 then s.arg0
  else if off = 0x08 then s.arg1
  else if off = 0x0C then s.statusWord
  else if off < 0x20 then 0
  else
    match s.img[(off - 0x20) / 8]? with
    | none => 0
    | some im => if (off - 0x20) % 8 = 0 then im.width else if (off - 0x20) % 8 = 4 then im.height else 0

/-- A 32-bit aligned write of byte offset `off`, other than CMD: ARG0 and ARG1 take the value (R32); a
read-only register or an unmapped offset ignores it (R45). -/
def State.writeReg (s : State) (off : Nat) (value : Word) : State :=
  if off = 0x04 then { s with arg0 := value }
  else if off = 0x08 then { s with arg1 := value }
  else s

/-! ### Stream ports -/

/-- `in_ready` (R63). -/
def State.inReady (s : State) : Bool := s.ph == .decRead

/-- `in_valid`: the source offers a token (R62). -/
def State.inValid (s : State) : Bool := !s.beats.isEmpty

/-- `out_valid` (R64). -/
def State.outValid (s : State) : Bool := s.ph == .encWrite

/-- `out_ready`: the sink takes the byte offered (R64). -/
def State.outReady (s : State) : Bool := s.sink.next.isSome

/-- `out_data`: while `out_valid` is 1, byte OPOS of the encode stream of the source slot (R64). While it is 0 the spec
gives no value: DESIGN CHOICE (log entry 19), the model gives none either. -/
def State.outData (s : State) : Option Byte :=
  if s.outValid then (s.slot s.l.src).bind (fun im => (encStream im)[s.opos]?) else none

/-! ### Reset -/

/-- A reset step (R230, R231): every field of R20 takes its reset value. The unit keeps its parameters, and
reset does not reach the agents outside it: tokens not consumed stay with the source, bytes accepted stay
with the sink (R231, R232). -/
def State.rst (s : State) : State :=
  { s with
    img := List.replicate s.nslot Image.empty
    arg0 := 0
    arg1 := 0
    status := Status.zero
    ph := .idle
    l := Latch.zero
    ibuf := []
    opos := 0
    acc := Accs.zero }

/-- `s` with the host about to write the word `w` to CMD while the unit is idle, in the very next step. A unit
that is busy drops a CMD write (R31 (a)), so a command in progress is taken as ended, its buffer empty. -/
def State.placeCommand (s : State) (w : Word) : State :=
  { s with
    ph := .idle
    ibuf := []
    hostq := .write 0x00 w :: s.hostq
    turns := .host :: s.turns }

end Sys2Proof.Machine
end

