-- ==== Sys2Proof/Machine/CmdDecode.lean ====
section
/-! DEFINITION. DECODE, the farbfeld frame parser (spec/41_codec_decode.md R120 to R134). -/

namespace Sys2Proof.Machine

/-- One iteration of the loop of phase DEC_READ (R120): the token on the input port is consumed; with none
there the unit waits, for ever if none comes (R238). -/
def readToken (s : State) : Out :=
  match s.beats with
  | [] => .next s
  | t :: rest =>
    match t.token with
    | none => .refused .reservedToken
    | some (.data b) =>
      if within s.caps.ibufcap (s.ibuf.length + 1) then
        .next { s with beats := rest, ibuf := s.ibuf ++ [b] }
      else .refused .ibufcapExceeded
    | some .eos => .next { s with beats := rest, ph := .decParse }
    | some .err => .next ({ s with beats := rest }.fail .io).emptyBuffer

/-- The single internal step of phase DEC_PARSE (R120, R130, R132): commit or failure, IBUF emptied by
either. -/
def runParse (s : State) : Out :=
  match parseFrame s.ibuf with
  | .error k => .next (s.fail k).emptyBuffer
  | .image im => s.emptyBuffer.commit s.l.dst im

/-- `DECODE dst`. Idle: issued, with IBUF emptied, or refused (R31, R38). Its own phases: the next token, or the
parse. Any other phase: dropped (R31 (a)). -/
def execDecode (dst : SlotIdx) (s : State) : Out :=
  if s.ph = .idle then
    if (Instr.decode dst).legal s.nslot then .next (s.issue (.decode dst)).emptyBuffer
    else .next (s.fail .illegalCommand)
  else if s.running = some (.decode dst) then
    if s.ph = .decRead then readToken s else runParse s
  else .next s.drop

end Sys2Proof.Machine
end

