-- ==== Sys2Proof/Machine/CmdEncode.lean ====
section
/-! DEFINITION. ENCODE, the farbfeld frame serializer (spec/42_codec_encode.md R140 to R150). -/

namespace Sys2Proof.Machine

/-- One iteration of the loop of phase ENC_WRITE (R140): byte OPOS is offered; the unit waits while the sink does
not take it (R238). OK counts the byte and, if it was the last, completes (R42); FAIL ends the command with Io,
the byte not counted as written (R65, R146). -/
def writeByte (s : State) : Out :=
  match s.slot s.l.src with
  | none => .fault .slotOutOfRange
  | some im =>
    match (encStream im)[s.opos]? with
    | none => .next s.succeed
    | some b =>
      match s.sink.next with
      | none => .next s
      | some (.fail, k) => .next ({ s with sink := k }.fail .io)
      | some (.ok, k) =>
        let s' := { s with sink := { k with taken := k.taken ++ [b] }, opos := s.opos + 1 }
        if s.opos + 1 < (encStream im).length then .next s' else .next s'.succeed

/-- `ENCODE src`. Idle: issued, with OPOS cleared and the sink at a new stream, or refused (R31, R38). Its own phase: the next byte. Any other
phase: dropped (R31 (a)). -/
def execEncode (src : SlotIdx) (s : State) : Out :=
  if s.ph = .idle then
    if (Instr.encode src).legal s.nslot then .next { s.issue (.encode src) with opos := 0, sink := s.sink.start }
    else .next (s.fail .illegalCommand)
  else if s.running = some (.encode src) then writeByte s
  else .next s.drop

end Sys2Proof.Machine
end

