-- ==== Sys2Proof/Machine/CmdNew.lean ====
section
/-! DEFINITION. NEW, the image constructor (spec/40_image_new.md R110 to R114). -/

namespace Sys2Proof.Machine

/-- The image NEW builds from a width and a height (R110, R111): `width * height` pixels, an exact 64-bit
product (R114), all opaque black. -/
def newImage (w h : Word) : Image := ⟨w, h, List.replicate (mul64 w h).toNat Pixel.opaqueBlack⟩

/-- The single internal step of phase NEW_RUN (R110). -/
def runNew (s : State) : Out := s.commit s.l.dst (newImage s.l.a0 s.l.a1)

/-- `NEW dst`. Idle: the word has just been written to CMD, and is issued or refused (R31). Its own phase: its
internal step. Any other phase: the word comes while the unit is busy, and is dropped (R31 (a)). -/
def execNew (dst : SlotIdx) (s : State) : Out :=
  if s.ph = .idle then
    if (Instr.new dst).legal s.nslot then .next (s.issue (.new dst)) else .next (s.fail .illegalCommand)
  else if s.running = some (.new dst) then runNew s
  else .next s.drop

end Sys2Proof.Machine
end

