-- ==== Sys2Proof/Machine/CmdPixelize.lean ====
section
/-! DEFINITION. PIXELIZE, the block-averaging downsampler (spec/43_downsampler_pixelize.md R155 to R170), by the
sequential loops of R155 (R166: one worker). -/

namespace Sys2Proof.Machine

/-- The pixels at the given indices, `PixRead` of each; `none` if some index is not below `plen` (R51). -/
def readPixels (pixels : List Pixel) : List Nat → Option (List Pixel)
  | [] => some []
  | i :: is =>
    match pixels[i]?, readPixels pixels is with
    | some p, some ps => some (p :: ps)
    | _, _ => none

/-- The blocks of the given output pixels, each a list of `f * f` source pixels (R155, R159). -/
def readBlocks (im : Image) (f : Nat) : List (Nat × Nat) → Option (List (List Pixel))
  | [] => some []
  | (x, y) :: rest =>
    match readPixels im.pixels (blockIndices im.width.toNat f x y), readBlocks im f rest with
    | some block, some blocks => some (block :: blocks)
    | _, _ => none

/-- The accumulators after the last block; as they were, where there is no block (R155). -/
def accsAfter (acc : Accs) (blocks : List (List Pixel)) : Accs :=
  match blocks.getLast? with
  | none => acc
  | some block => accumulate block

/-- The single internal step of phase PIX_RUN (R155): factor 0 first, then the two remainders (R156, R157), then
the averages, committed with `DONE` in the one step (R163). -/
def runPixelize (s : State) : Out :=
  match s.slot s.l.src with
  | none => .fault .slotOutOfRange
  | some im =>
    if s.l.a0 = 0 then .next (s.fail .nonExactMultiple)
    else if mod32 im.width s.l.a0 ≠ 0 ∨ mod32 im.height s.l.a0 ≠ 0 then .next (s.fail .nonExactMultiple)
    else
      let nw := div32 im.width s.l.a0
      let nh := div32 im.height s.l.a0
      match readBlocks im s.l.a0.toNat (outCoords nw.toNat nh.toNat) with
      | none => .fault .pixelOutOfRange
      | some blocks =>
        if blocks.all sumsFit then
          { s with acc := accsAfter s.acc blocks }.commit s.l.dst
            ⟨nw, nh, blocks.map (averagePixel (mul64 s.l.a0 s.l.a0))⟩
        else .refused .blockSumOverflow

/-- `PIXELIZE dst, src`. Idle: issued or refused (R31). Its own phase: its internal step. Any other phase: dropped
(R31 (a)). -/
def execPixelize (dst src : SlotIdx) (s : State) : Out :=
  if s.ph = .idle then
    if (Instr.pixelize dst src).legal s.nslot then .next (s.issue (.pixelize dst src))
    else .next (s.fail .illegalCommand)
  else if s.running = some (.pixelize dst src) then runPixelize s
  else .next s.drop

end Sys2Proof.Machine
end

