-- ==== Sys2Proof/Machine/Dispatch.lean ====
section
/-! DEFINITION. One arm per command. `exec i s` is what the unit does next for the command `i`: idle, the word of
`i` has just been written to CMD; in a phase of `i` itself, the next step of `i`. -/

namespace Sys2Proof.Machine

def exec (i : Instr) (s : State) : Host.Outcome State Fault Refusal :=
  match i with
  | .new dst => Sys2Proof.Machine.execNew dst s
  | .decode dst => Sys2Proof.Machine.execDecode dst s
  | .encode src => Sys2Proof.Machine.execEncode src s
  | .pixelize dst src => Sys2Proof.Machine.execPixelize dst src s

end Sys2Proof.Machine
end

