-- ==== Sys2Proof/Machine/HostPort.lean ====
section
/-! DEFINITION. The steps of the agents (spec/00_scope.md R9, R10): a host register access
(spec/10_state.md R30 to R32, R45), where a command word is fetched from the CMD write itself (R70) and decoded
(R31); the unit's own next step (R42); and whose step it is. -/

namespace Sys2Proof.Machine

/-- A host write of `w` to CMD (R31): dropped while busy; else decoded, a word that selects no row being illegal
(R89). A word that selects a row goes to its command, which checks the rest of R88. -/
def writeCmd (w : Word) (s : State) : Out :=
  if s.busy then .next s.drop
  else
    match decode w with
    | none => .next (s.fail .illegalCommand)
    | some i => exec i s

/-- One action of the host on the register block; `s` has it taken from the host's queue already. -/
def hostAct (op : HostOp) (s : State) : Out :=
  match op with
  | .read off =>
    if off % 4 = 0 then .next { s with seen := s.seen ++ [s.readReg off] } else .refused .unalignedAccess
  | .write off value =>
    if off % 4 = 0 then if off = 0x00 then writeCmd value s else .next (s.writeReg off value)
    else .refused .unalignedAccess
  | .narrow _ => .refused .narrowAccess
  | .waitDone =>
    if s.status.done then .next { s with seen := s.seen ++ [s.statusWord] }
    else .next { s with seen := s.seen ++ [s.statusWord], hostq := .waitDone :: s.hostq }

/-- The host's step: its next action, if it has one. -/
def hostStep (s : State) : Out :=
  match s.hostq with
  | [] => .next s
  | op :: rest => hostAct op { s with hostq := rest }

/-- The unit's step: the next step of the command in progress; idle, it does nothing (R42: no other transition
exists). -/
def unitStep (s : State) : Out :=
  match s.running with
  | none => .next s
  | some i => exec i s

/-- Is a step of the unit enabled: an internal step always, a port transfer when its partner is there (R10, R42,
R62, R64)? -/
def State.unitEnabled (s : State) : Bool :=
  match s.ph with
  | .idle => false
  | .newRun => true
  | .decRead => s.inValid
  | .decParse => true
  | .encWrite => s.outReady
  | .pixRun => true

/-- The step when `turns` does not say whose it is: the unit's if one is enabled (the fairness of R10), else the
host's. -/
def defaultStep (s : State) : Out := if s.unitEnabled then unitStep s else hostStep s

/-- The step of the agent whose turn it is. -/
def turnStep (t : Turn) (s : State) : Out :=
  match t with
  | .host => hostStep s
  | .unit => unitStep s
  | .reset => .next s.rst

end Sys2Proof.Machine
end

