-- ==== Sys2Proof/Machine/Step.lean ====
section
/-! DEFINITION. One step of the machine: one step of one agent (spec/00_scope.md R10). Every interleaving of the
agents is some list `turns`. -/

namespace Sys2Proof.Machine

/-- One step: the agent at the head of `turns` moves; with `turns` empty, the default order. -/
def step (s : State) : Host.Outcome State Fault Refusal :=
  match s.turns with
  | [] => defaultStep s
  | t :: rest => turnStep t { s with turns := rest }

/-- `s` with the command word of an opcode-table row placed where the next step takes its command word from: the
host's next action is the CMD write of that word to an idle unit. -/
def State.withFetchWord (s : State) (nbits w : Nat) : State := s.placeCommand (tableWord nbits w)

end Sys2Proof.Machine
end

