-- ==== Sys2Proof/Machine/Script.lean ====
section
/-! DEFINITION. The textual syntax of spec/30_encoding.md R91 and R92: the host's statements and what they expand to,
and the directives that describe the source and the sink. The directive `.reset` is `Turn.reset`. -/

namespace Sys2Proof.Machine

/-- A statement of R91 (host primitives) or R92 (command mnemonics). -/
inductive Stmt where
  | wr (off : Nat) (value : Word)
  | rd (off : Nat)
  | wait
  | new (d : SlotIdx) (w h : Word)
  | decode (d : SlotIdx)
  | encode (s : SlotIdx)
  | pixelize (d s : SlotIdx) (f : Word)
deriving DecidableEq, Repr

/-- The host primitives a statement stands for (R92), the command word by the sum R92 gives. -/
def Stmt.expand : Stmt → List HostOp
  | .wr off value => [.write off value]
  | .rd off => [.read off]
  | .wait => [.waitDone]
  | .new d w h =>
    [.write 0x04 w, .write 0x08 h, .write 0x00 (0x00000001 + 0x100 * d.setWidth 32), .waitDone]
  | .decode d => [.write 0x00 (0x00000002 + 0x100 * d.setWidth 32), .waitDone]
  | .encode s => [.write 0x00 (0x00000003 + 0x1000 * s.setWidth 32), .waitDone]
  | .pixelize d s f =>
    [.write 0x04 f, .write 0x00 (0x00000004 + 0x100 * d.setWidth 32 + 0x1000 * s.setWidth 32), .waitDone]

/-- `s` with a host that will carry out the statements. -/
def State.withScript (s : State) (script : List Stmt) : State :=
  { s with hostq := s.hostq ++ script.flatMap Stmt.expand }

/-- `.stream <bytes> EOS` (R91): one stream queued at the source. -/
def State.streamEos (s : State) (bytes : List Byte) : State :=
  { s with beats := s.beats ++ bytes.map Beat.dataOf ++ [Beat.eos] }

/-- `.stream <bytes> ERR` (R91). -/
def State.streamErr (s : State) (bytes : List Byte) : State :=
  { s with beats := s.beats ++ bytes.map Beat.dataOf ++ [Beat.err] }

/-- `.sink ok` (R91): OK to every byte from now on, of this ENCODE and of every later one. -/
def State.sinkOk (s : State) : State :=
  { s with sink := { s.sink with answers := [], rest := some .ok, plans := [] } }

/-- `.sink fail_at k` (R91): OK to bytes 0 to k − 1 of the next ENCODE, the first issued after the directive, and FAIL to
its byte k. An ENCODE in progress and the ENCODEs after the next one are answered as before. DESIGN CHOICE (log entry
18): of two such directives before one ENCODE the later counts. -/
def State.sinkFailAt (s : State) (k : Nat) : State :=
  { s with sink := { s.sink with plans := (List.replicate k .ok ++ [.fail]) :: s.sink.plans.tail } }

end Sys2Proof.Machine
end

