-- ==== Sys2Proof/Safety.lean ====
section
/-! DEFINITION. What holds of the unit in every state a run reaches, and what counts as a safe step. -/

namespace Sys2Proof.Machine

/-- `pixels.len() == width * height` (spec/10_state.md R24). -/
abbrev Image.wf (im : Image) : Prop := im.pixels.length = im.width.toNat * im.height.toNat

/-- The invariant of the unit. -/
structure State.Inv (s : State) : Prop where
  /-- 2 ≤ NSLOT ≤ 16 (R21). -/
  slots : 2 ≤ s.nslot ∧ s.nslot ≤ 16
  /-- Every slot holds as many pixels as its dimensions declare (R24). -/
  images : ∀ im ∈ s.img, im.wf
  /-- No slot holds more than PIXCAP pixels (R74). -/
  pixels : ∀ im ∈ s.img, within s.caps.pixcap im.pixels.length = true
  /-- IBUF holds at most IBUFCAP bytes (R74). -/
  bytes : within s.caps.ibufcap s.ibuf.length = true
  /-- While a command is in progress DONE, ERR and KIND are 0 (R35, R36, R41). -/
  busyClear : s.ph ≠ .idle → s.status.done = false ∧ s.status.err = false ∧ s.status.kind = 0
  /-- ERR comes with DONE (R35, R36). -/
  errDone : s.status.err = true → s.status.done = true
  /-- KIND is 0 exactly when ERR is 0 (R33). -/
  errKind : s.status.err = true ↔ s.status.kind ≠ 0
  /-- Values 6, 7 and 9 to 15 of KIND never occur (R36). -/
  kinds : s.status.kind ∈ [0, 1, 2, 3, 4, 5, 8]
  /-- Outside a DECODE the buffer is empty (R43). -/
  buffer : s.ph ≠ .decRead → s.ph ≠ .decParse → s.ibuf = []
  /-- The command in progress is the legal command the latch holds (R38, R88). -/
  latched : ∀ i, s.running = some i →
    i.legal s.nslot = true ∧ s.l.opc = i.opc ∧ s.l.dst = i.dstField ∧ s.l.src = i.srcField
  /-- An ENCODE in progress has a byte left to offer (R42, R44). -/
  position : s.ph = .encWrite → ∀ im, s.slot s.l.src = some im → s.opos < 16 + 8 * im.pixels.length

/-- One channel's value at an index of an image's pixels, 0 past their end (`PixRead`, R51). -/
def Image.channelAt (im : Image) (channel : Pixel → Half) (i : Nat) : Nat :=
  (im.pixels[i]?).elim 0 (fun p => (channel p).toNat)

/-- The exact sum of one channel over the block of output pixel `(x, y)`: the source pixels at columns
`[x*f, (x+1)*f)` and rows `[y*f, (y+1)*f)` (spec/43_downsampler_pixelize.md R159; spec/20_memory.md R72). -/
def Image.blockTotal (im : Image) (f : Nat) (channel : Pixel → Half) (x y : Nat) : Nat :=
  ∑ dy ∈ Finset.range f, ∑ dx ∈ Finset.range f,
    im.channelAt channel ((x * f + dx) + (y * f + dy) * im.width.toNat)

/-- `n` steps, stopping at the first fault or refusal: `Host.Core.run` of this machine (`runSteps_eq_core_run`). -/
def runSteps : Nat → State → Out
  | 0, s => .next s
  | n + 1, s =>
    match step s with
    | .next t => runSteps n t
    | .fault r => .fault r
    | .refused r => .refused r

/-- The next step is no reset step. -/
def State.notReset (s : State) : Prop := ∀ ts, s.turns ≠ .reset :: ts

/-- A step that does not end in a fault. -/
def safeStep (s : State) : Prop := ∀ r, step s ≠ .fault r

end Sys2Proof.Machine
end

