-- ==== Sys2Proof/Certificates/Slice0/Obligations.lean ====
section
/-! DEFINITION. The statements for the provers. Each docstring names the rule of spec/ it comes from. A
conclusion `exec i s = .next { s with … }` gives the whole next state, so it is the frame too: every field it
does not name is unchanged. `exec` of a command in progress (`s.running = some i`) is that command's next
step; `exec` of a command while the unit is idle is the issue of its word. The fields `caps`, `hostq`, `seen`,
`beats`, `sink` and `turns` of a state are the model's own (log entries 1 to 4). -/

open Sys2Proof Sys2Proof.Machine

/-! ### Encoding -/

/-- Decoding and encoding agree in both directions: a word decodes to a command exactly when it is that command's
word, so every word has at most one meaning and no bit is dropped (R81 to R83). -/
def Obligations.DecodeIffEncode : Prop :=
  ∀ (w : Word) (i : Instr), decode w = some i ↔ encode i = w

/-- The nineteen words of the command-word table of 95_test_vectors.md, section 2.1, in a unit with two slots. -/
def Obligations.CommandWordTable : Prop :=
  decodeLegal 2 0x00000001 = some (.new 0) ∧ decodeLegal 2 0x00000101 = some (.new 1) ∧
  decodeLegal 2 0x00000201 = none ∧ decodeLegal 2 0x00001001 = none ∧
  decodeLegal 2 0x00000002 = some (.decode 0) ∧ decodeLegal 2 0x00000102 = some (.decode 1) ∧
  decodeLegal 2 0x00000003 = some (.encode 0) ∧ decodeLegal 2 0x00001003 = some (.encode 1) ∧
  decodeLegal 2 0x00000103 = none ∧
  decodeLegal 2 0x00000104 = some (.pixelize 1 0) ∧ decodeLegal 2 0x00001004 = some (.pixelize 0 1) ∧
  decodeLegal 2 0x00000004 = none ∧ decodeLegal 2 0x00001104 = none ∧
  decodeLegal 2 0x00002104 = none ∧ decodeLegal 2 0x00000000 = none ∧
  decodeLegal 2 0x00000005 = none ∧ decodeLegal 2 0x000000FF = none ∧
  decodeLegal 2 0x00010002 = none ∧ decodeLegal 2 0x80000001 = none

/-- R88: the words that are legal in a unit with `nslot` slots, condition by condition (a) to (e). -/
def Obligations.LegalWordConditions : Prop :=
  ∀ (nslot : Nat) (w : Word),
    (decodeLegal nslot w).isSome = true ↔
      (w.extractLsb' 16 16 = 0 ∧
       (wordOpc w = 1 ∨ wordOpc w = 2 ∨ wordOpc w = 3 ∨ wordOpc w = 4) ∧
       (wordOpc w = 1 ∨ wordOpc w = 2 → wordSrc w = 0) ∧ (wordOpc w = 3 → wordDst w = 0) ∧
       (wordOpc w = 1 ∨ wordOpc w = 2 ∨ wordOpc w = 4 → (wordDst w).toNat < nslot) ∧
       (wordOpc w = 3 ∨ wordOpc w = 4 → (wordSrc w).toNat < nslot) ∧
       (wordOpc w = 4 → wordDst w ≠ wordSrc w))

/-- R15: the big-endian primitives, each as a number or as the bytes it gives, and that each pair undoes the other. -/
def Obligations.BigEndianPrimitives : Prop :=
  ∀ (b0 b1 b2 b3 : Byte) (v : Half) (w : Word),
    (be16 b0 b1).toNat = b0.toNat * 256 + b1.toNat ∧
    (be32 b0 b1 b2 b3).toNat = b0.toNat * 2 ^ 24 + b1.toNat * 2 ^ 16 + b2.toNat * 2 ^ 8 + b3.toNat ∧
    (∃ c0 c1, enc16 v = [c0, c1] ∧ c0.toNat = v.toNat / 256 ∧ c1.toNat = v.toNat % 256 ∧ be16 c0 c1 = v) ∧
    (∃ c0 c1 c2 c3, enc32 w = [c0, c1, c2, c3] ∧ c0.toNat = w.toNat / 2 ^ 24 ∧
      c1.toNat = w.toNat / 2 ^ 16 % 256 ∧ c2.toNat = w.toNat / 2 ^ 8 % 256 ∧ c3.toNat = w.toNat % 256 ∧
      be32 c0 c1 c2 c3 = w)

/-- R86: the two maps of format P are inverse bijections between pixels and 8-byte chunks. -/
def Obligations.ChunkBijection : Prop :=
  (∀ p : Pixel, p.toChunk.length = 8 ∧ pixelAt p.toChunk 0 = p) ∧
  (∀ c : List Byte, c.length = 8 → (pixelAt c 0).toChunk = c)

/-- R92: the register writes a command mnemonic expands to; the word is the command's own word, and the
operands are written before it. -/
def Obligations.MnemonicExpansions : Prop :=
  ∀ (d s : SlotIdx) (w h f : Word),
    (Stmt.new d w h).expand = [.write 0x04 w, .write 0x08 h, .write 0x00 (encode (.new d)), .waitDone] ∧
    (Stmt.decode d).expand = [.write 0x00 (encode (.decode d)), .waitDone] ∧
    (Stmt.encode s).expand = [.write 0x00 (encode (.encode s)), .waitDone] ∧
    (Stmt.pixelize d s f).expand =
      [.write 0x04 f, .write 0x00 (encode (.pixelize d s)), .waitDone]

/-! ### The command register, and what a step runs -/

/-- R213, R236: a CMD write while busy is dropped. It sets OVR and changes nothing else of the unit, so it is not
queued and cannot touch ERR or KIND. -/
def Obligations.BusyCmdWriteDropped : Prop :=
  ∀ (s : State) (w : Word) (rest : List HostOp) (ts : List Turn),
    s.turns = .host :: ts → s.hostq = .write 0x00 w :: rest → s.ph ≠ .idle →
    step s = .next { s with turns := ts, hostq := rest, status := { s.status with ovr := true } }

/-- R206: a CMD write, while idle, of a word that is not legal starts nothing and reports IllegalCommand (code 8);
only STATUS changes. -/
def Obligations.IllegalWordReported : Prop :=
  ∀ (s : State) (w : Word) (rest : List HostOp) (ts : List Turn),
    s.turns = .host :: ts → s.hostq = .write 0x00 w :: rest → s.ph = .idle →
    decodeLegal s.nslot w = none →
    step s = .next { s with
      turns := ts
      hostq := rest
      status := { s.status with done := true, err := true, kind := 8 } }

/-- R38, R42: a CMD write, while idle, of a legal word issues its command: latch, STATUS, phase, and the position
the command starts from. That an ENCODE's issue is where the sink begins the answers planned for it is the model's
choice (log entry 18). -/
def Obligations.LegalWordIssued : Prop :=
  ∀ (s : State) (w : Word) (rest : List HostOp) (ts : List Turn),
    s.turns = .host :: ts → s.hostq = .write 0x00 w :: rest → s.ph = .idle →
    (decodeLegal s.nslot w).isSome = true →
    step s = .next { s with
      turns := ts
      hostq := rest
      l := ⟨w.extractLsb' 0 8, w.extractLsb' 8 4, w.extractLsb' 12 4, s.arg0, s.arg1⟩
      status := { s.status with done := false, err := false, kind := 0 }
      ph := if w.extractLsb' 0 8 = 1 then .newRun
            else if w.extractLsb' 0 8 = 2 then .decRead
            else if w.extractLsb' 0 8 = 3 then .encWrite
            else .pixRun
      ibuf := if w.extractLsb' 0 8 = 2 then [] else s.ibuf
      opos := if w.extractLsb' 0 8 = 3 then 0 else s.opos
      sink := if w.extractLsb' 0 8 = 3
              then { s.sink with answers := s.sink.plans.headD [], plans := s.sink.plans.tail } else s.sink }

/-- A step runs the decoded command: when the host's next action is a CMD write of a word that decodes to `i` and
the unit is idle, the step is `exec i`, with the action and the turn taken (R31, R42); so it is, too, with
no turn listed: that the host then moves is the model's choice (log entry 4, DESIGN CHOICE). -/
def Obligations.StepRunsWrittenCommand : Prop :=
  ∀ (s : State) (w : Word) (i : Instr) (rest : List HostOp),
    s.hostq = .write 0x00 w :: rest → s.ph = .idle → decode w = some i →
    (∀ ts, s.turns = .host :: ts → step s = exec i { s with turns := ts, hostq := rest }) ∧
    (s.turns = [] → step s = exec i { s with hostq := rest })

/-- A step of the unit runs the command in progress (R42); with no turn listed it does so whenever a step of the unit is
enabled: that the unit then moves is the model's choice (log entry 4, DESIGN CHOICE). -/
def Obligations.StepRunsCommandInProgress : Prop :=
  ∀ (s : State) (i : Instr), s.running = some i →
    (∀ ts, s.turns = .unit :: ts → step s = exec i { s with turns := ts }) ∧
    (s.turns = [] → s.unitEnabled = true → step s = exec i s)

/-- The word placed by `withFetchWord` is what the next step runs, in a unit that is idle (log entry 7). -/
def Obligations.PlacedWordRuns : Prop :=
  ∀ (s : State) (w : Word) (i : Instr), decode w = some i →
    step (s.withFetchWord 32 w.toNat) = exec i { s with ph := .idle, ibuf := [] }

/-- R38, for each of the four commands: while the unit is idle, `exec` of a legal command issues it.
That an ENCODE's issue is where the sink begins the answers planned for it is the model's choice (log entry 18). -/
def Obligations.ExecIssuesLegalCommand : Prop :=
  ∀ (i : Instr) (s : State), s.ph = .idle → i.legal s.nslot = true →
    exec i s = .next { s with
      l := ⟨i.opc, i.dstField, i.srcField, s.arg0, s.arg1⟩
      status := { s.status with done := false, err := false, kind := 0 }
      ph := firstPhase i
      ibuf := if i.opc = 2 then [] else s.ibuf
      opos := if i.opc = 3 then 0 else s.opos
      sink := if i.opc = 3
              then { s.sink with answers := s.sink.plans.headD [], plans := s.sink.plans.tail } else s.sink }

/-- R31 (a), (b), for each of the four commands: idle, `exec` of a command that is not legal reports IllegalCommand;
busy with something else, `exec` of a command drops it (log entry 6). Neither has any other effect. -/
def Obligations.ExecTurnsCommandAway : Prop :=
  ∀ (i : Instr) (s : State),
    (s.ph = .idle → i.legal s.nslot = false →
      exec i s = .next { s with status := { s.status with done := true, err := true, kind := 8 } }) ∧
    (s.ph ≠ .idle → s.running ≠ some i →
      exec i s = .next { s with status := { s.status with ovr := true } })

/-- R38, R235: a command in progress uses only the latch. Whatever ARG0 and ARG1 hold, its next step is the same,
and leaves them as they are. -/
def Obligations.RunningCommandIgnoresArgs : Prop :=
  ∀ (i : Instr) (s t : State) (x y : Word), s.running = some i →
    exec i s = .next t → exec i { s with arg0 := x, arg1 := y } = .next { t with arg0 := x, arg1 := y }

/-- What no command ever changes: ARG0 and ARG1 (R27: no command writes them), the number of slots and the
capacities (R7), the host's queue, the values the host has read, and the turns. -/
def Obligations.ExecFrame : Prop :=
  ∀ (i : Instr) (s t : State), exec i s = .next t →
    t.arg0 = s.arg0 ∧ t.arg1 = s.arg1 ∧ t.nslot = s.nslot ∧ t.caps = s.caps ∧
    t.hostq = s.hostq ∧ t.seen = s.seen ∧ t.turns = s.turns

/-! ### NEW -/

/-- R110, R111: NEW completes, for every width and height, with an image of that many opaque black pixels in its
destination slot, the count an exact product; nothing else changes but STATUS.DONE and PH. -/
def Obligations.NewCommitsOpaqueBlack : Prop :=
  ∀ (s : State) (d : SlotIdx), s.running = some (.new d) → d.toNat < s.nslot →
    within s.caps.pixcap (s.l.a0.toNat * s.l.a1.toNat) = true →
    exec (.new d) s = .next { s with
      img := s.img.set d.toNat
        ⟨s.l.a0, s.l.a1, List.replicate (s.l.a0.toNat * s.l.a1.toNat) ⟨0, 0, 0, 65535⟩⟩
      ph := .idle
      status := { s.status with done := true } }

/-- R74, U3: in a unit whose stores are finite, a run that would exceed one is refused under a name of its own: a NEW, a
DECODE or a PIXELIZE whose image exceeds PIXCAP, and a DECODE byte that would exceed IBUFCAP. Where a store is looked
at (PIXCAP at the commit, so after every error of the command and after the block sums; IBUFCAP at the DATA token) is
the model's choice (log entry 10, DESIGN CHOICE). -/
def Obligations.CapacityExceededRefused : Prop :=
  (∀ (s : State) (d : SlotIdx) (cap : Nat), s.running = some (.new d) → d.toNat < s.nslot →
    s.caps.pixcap = some cap → cap < s.l.a0.toNat * s.l.a1.toNat →
    exec (.new d) s = .refused .pixcapExceeded) ∧
  (∀ (s : State) (d : SlotIdx) (cap : Nat) (b : Byte) (t : List Beat), s.running = some (.decode d) →
    s.ph = .decRead → s.beats = ⟨0, b⟩ :: t → s.caps.ibufcap = some cap → cap ≤ s.ibuf.length →
    exec (.decode d) s = .refused .ibufcapExceeded) ∧
  (∀ (s : State) (d : SlotIdx) (cap : Nat) (im : Image), s.running = some (.decode d) → s.ph = .decParse →
    d.toNat < s.nslot → parseFrame s.ibuf = .image im → s.caps.pixcap = some cap → cap < im.pixels.length →
    exec (.decode d) s = .refused .pixcapExceeded) ∧
  (∀ (s : State) (d n : SlotIdx) (cap : Nat) (im : Image) (f nw nh : Nat),
    s.running = some (.pixelize d n) → d.toNat < s.nslot → s.slot n = some im → im.wf →
    f = s.l.a0.toNat → f ≠ 0 → nw * f = im.width.toNat → nh * f = im.height.toNat →
    (∀ x y, x < nw → y < nh →
      im.blockTotal f (·.r) x y < 2 ^ 64 ∧ im.blockTotal f (·.g) x y < 2 ^ 64 ∧
      im.blockTotal f (·.b) x y < 2 ^ 64 ∧ im.blockTotal f (·.a) x y < 2 ^ 64) →
    s.caps.pixcap = some cap → cap < nw * nh →
    exec (.pixelize d n) s = .refused .pixcapExceeded)

/-! ### DECODE -/

/-- R42, R62, R63: in DEC_READ a DATA token is consumed and its byte appended to IBUF; an EOS token, whatever its
data byte, ends the reading. Nothing else changes. -/
def Obligations.DecodeReadsToken : Prop :=
  ∀ (s : State) (d : SlotIdx) (b : Byte) (t : List Beat), s.running = some (.decode d) → s.ph = .decRead →
    (s.beats = ⟨0, b⟩ :: t → within s.caps.ibufcap (s.ibuf.length + 1) = true →
      exec (.decode d) s = .next { s with beats := t, ibuf := s.ibuf ++ [b] }) ∧
    (s.beats = ⟨1, b⟩ :: t → exec (.decode d) s = .next { s with beats := t, ph := .decParse })

/-- R122: an ERR token ends the DECODE at once with Io (code 1), whatever bytes came before it; the ERR is consumed,
IBUF emptied, no slot changed. -/
def Obligations.DecodeReadErrorIsIo : Prop :=
  ∀ (s : State) (d : SlotIdx) (b : Byte) (t : List Beat), s.running = some (.decode d) → s.ph = .decRead →
    s.beats = ⟨2, b⟩ :: t →
    exec (.decode d) s = .next { s with
      beats := t
      ibuf := []
      ph := .idle
      status := { s.status with done := true, err := true, kind := 1 } }

/-- R123, R202: a buffer shorter than 16 bytes gives HeaderToShort (code 2), whatever its content. -/
def Obligations.DecodeHeaderToShort : Prop :=
  ∀ (s : State) (d : SlotIdx), s.running = some (.decode d) → s.ph = .decParse →
    s.ibuf.length < 16 →
    exec (.decode d) s = .next { s with
      ibuf := []
      ph := .idle
      status := { s.status with done := true, err := true, kind := 2 } }

/-- R124, R203: 16 bytes or more whose first 8 are not the ASCII letters farbfeld give FarbfeldPatternNotFound
(code 3), whatever follows. -/
def Obligations.DecodePatternNotFound : Prop :=
  ∀ (s : State) (d : SlotIdx), s.running = some (.decode d) → s.ph = .decParse →
    16 ≤ s.ibuf.length → s.ibuf.take 8 ≠ [0x66, 0x61, 0x72, 0x62, 0x66, 0x65, 0x6C, 0x64] →
    exec (.decode d) s = .next { s with
      ibuf := []
      ph := .idle
      status := { s.status with done := true, err := true, kind := 3 } }

/-- R204: with length and magic right, fewer complete chunks than the exact product of the declared dimensions give
MismatchedLength (code 4), and nothing else does; too much data never does. -/
def Obligations.DecodeMismatchedLength : Prop :=
  (∀ (s : State) (d : SlotIdx), s.running = some (.decode d) → s.ph = .decParse →
    16 ≤ s.ibuf.length → s.ibuf.take 8 = [0x66, 0x61, 0x72, 0x62, 0x66, 0x65, 0x6C, 0x64] →
    (s.ibuf.length - 16) / 8 < (field32 s.ibuf 8).toNat * (field32 s.ibuf 12).toNat →
    exec (.decode d) s = .next { s with
      ibuf := []
      ph := .idle
      status := { s.status with done := true, err := true, kind := 4 } }) ∧
  (∀ buf : List Byte, parseFrame buf = .error .mismatchedLength ↔
    16 ≤ buf.length ∧ buf.take 8 = [0x66, 0x61, 0x72, 0x62, 0x66, 0x65, 0x6C, 0x64] ∧
    (buf.length - 16) / 8 < (field32 buf 8).toNat * (field32 buf 12).toNat)

/-- R120, R128, R130: a buffer with the magic and at least `16 + 8 * width * height` bytes, whatever follows them,
is committed: pixel `i` is the chunk at offset `16 + 8i`, its four channels big-endian in the order r, g, b, a. -/
def Obligations.DecodeCommitsImage : Prop :=
  ∀ (s : State) (d : SlotIdx), s.running = some (.decode d) → s.ph = .decParse → d.toNat < s.nslot →
    16 ≤ s.ibuf.length → s.ibuf.take 8 = [0x66, 0x61, 0x72, 0x62, 0x66, 0x65, 0x6C, 0x64] →
    16 + 8 * ((field32 s.ibuf 8).toNat * (field32 s.ibuf 12).toNat) ≤ s.ibuf.length →
    within s.caps.pixcap ((field32 s.ibuf 8).toNat * (field32 s.ibuf 12).toNat) = true →
    ∃ px : List Pixel,
      exec (.decode d) s = .next { s with
        img := s.img.set d.toNat ⟨field32 s.ibuf 8, field32 s.ibuf 12, px⟩
        ibuf := []
        ph := .idle
        status := { s.status with done := true } } ∧
      px.length = (field32 s.ibuf 8).toNat * (field32 s.ibuf 12).toNat ∧
      ∀ (i : Nat) (p : Pixel), px[i]? = some p →
        ∀ j : Nat, j < 8 → p.toChunk[j]? = s.ibuf[16 + 8 * i + j]?

/-- R129: bytes after the declared pixels, however many, whole chunks or not, change nothing: neither the result nor
the error kind nor STATUS. -/
def Obligations.TrailingBytesIgnored : Prop :=
  ∀ (s : State) (d : SlotIdx) (extra : List Byte), s.running = some (.decode d) → s.ph = .decParse →
    16 + 8 * ((field32 s.ibuf 8).toNat * (field32 s.ibuf 12).toNat) ≤ s.ibuf.length →
    exec (.decode d) { s with ibuf := s.ibuf ++ extra } = exec (.decode d) s

/-- R134: the frame parser undoes the serializer, for every image with as many pixels as its dimensions declare. -/
def Obligations.ParseUndoesSerialize : Prop :=
  ∀ im : Image, im.wf → parseFrame (encStream im) = .image im

/-- R239: what a sink holds after a failed ENCODE, a proper prefix of the stream, is never taken for an image: shorter
than 16 bytes it gives HeaderToShort, else MismatchedLength. -/
def Obligations.TruncatedStreamRejected : Prop :=
  ∀ (im : Image) (k : Nat), im.wf → k < 16 + 8 * im.pixels.length →
    parseFrame ((encStream im).take k) = .error (if k < 16 then .headerToShort else .mismatchedLength)

/-- R120, R121, a whole DECODE from the CMD write that issues it: one step for the write, one for each token up to
the EOS, one for the parse. The outcome is the frame parser's on the whole stream; nothing after the EOS is
consumed; a failure leaves every slot alone. Two things here are the model's choice: with no turn listed the unit
moves whenever it can (log entry 4, DESIGN CHOICE; the spec lets the host move in between), and the parse is one step
(log entry 13), so that the run has n + 3 steps. -/
def Obligations.WholeDecodeRun : Prop :=
  ∀ (s : State) (d : SlotIdx) (bytes : List Byte) (e : Byte) (later : List Beat) (rest : List HostOp),
    s.ph = .idle → s.turns = [] → d.toNat < s.nslot → s.caps = ⟨none, none⟩ →
    s.hostq = .write 0x00 (encode (.decode d)) :: rest →
    s.beats = bytes.map (fun b => ⟨0, b⟩) ++ ⟨1, e⟩ :: later →
    runSteps (bytes.length + 3) s =
      (match parseFrame bytes with
       | .image im => .next { s with
           hostq := rest
           beats := later
           l := ⟨2, d, 0, s.arg0, s.arg1⟩
           ibuf := []
           status := ⟨true, false, s.status.ovr, 0⟩
           img := s.img.set d.toNat im }
       | .error k => .next { s with
           hostq := rest
           beats := later
           l := ⟨2, d, 0, s.arg0, s.arg1⟩
           ibuf := []
           status := ⟨true, true, s.status.ovr, k.code⟩ })

/-! ### ENCODE -/

/-- R144: the encode stream of an image, its length and its byte at every offset. -/
def Obligations.EncodeStreamBytes : Prop :=
  ∀ (im : Image),
    (encStream im).length = 16 + 8 * im.pixels.length ∧
    (encStream im).take 8 = [0x66, 0x61, 0x72, 0x62, 0x66, 0x65, 0x6C, 0x64] ∧
    (∀ k, 8 ≤ k → k < 12 → (encStream im)[k]? = (enc32 im.width)[k - 8]?) ∧
    (∀ k, 12 ≤ k → k < 16 → (encStream im)[k]? = (enc32 im.height)[k - 12]?) ∧
    (∀ (k : Nat) (p : Pixel), 16 ≤ k → im.pixels[(k - 16) / 8]? = some p →
      (encStream im)[k]? =
        (enc16 (if (k - 16) % 8 / 2 = 0 then p.r
                else if (k - 16) % 8 / 2 = 1 then p.g
                else if (k - 16) % 8 / 2 = 2 then p.b
                else p.a))[(k - 16) % 8 % 2]?)

/-- R42, R64, R140: a byte the sink answers OK to is counted; the command goes on, or completes if it was the last.
The byte is byte OPOS of the stream of the source slot, which keeps its image. `k` is the sink once it has answered. -/
def Obligations.EncodeTransfersByte : Prop :=
  ∀ (s : State) (n : SlotIdx) (im : Image) (b : Byte) (k : Sink),
    s.running = some (.encode n) → s.slot n = some im → (encStream im)[s.opos]? = some b →
    s.sink.next = some (.ok, k) →
    (s.opos + 1 < 16 + 8 * im.pixels.length →
      exec (.encode n) s = .next { s with opos := s.opos + 1, sink := { k with taken := s.sink.taken ++ [b] } }) ∧
    (s.opos + 1 = 16 + 8 * im.pixels.length →
      exec (.encode n) s = .next { s with
        opos := s.opos + 1
        sink := { k with taken := s.sink.taken ++ [b] }
        ph := .idle
        status := { s.status with done := true } })

/-- R146: at a FAIL, on any byte, the ENCODE ends with Io (code 1); the byte is not counted, no slot changes, and the
sink has no more bytes than before. -/
def Obligations.EncodeWriteErrorIsIo : Prop :=
  ∀ (s : State) (n : SlotIdx) (im : Image) (k : Sink),
    s.running = some (.encode n) → s.slot n = some im → s.opos < 16 + 8 * im.pixels.length →
    s.sink.next = some (.fail, k) →
    k.taken = s.sink.taken ∧
    exec (.encode n) s = .next { s with
      sink := k
      ph := .idle
      status := { s.status with done := true, err := true, kind := 1 } }

/-- R65, R140, R243, a whole ENCODE that succeeds, from the CMD write that issues it: `16 + 8 * plen` transfers after
the write, the sink has then received exactly the encode stream, and no slot has changed. The sink answers OK to
every byte, because it plans nothing for this ENCODE and answers OK else, or because it plans that many OKs, whatever
would come after them (R91: a FAIL planned for a byte the ENCODE does not have). Two things are the model's choice:
with no turn listed the unit moves whenever it can (log entry 4, DESIGN CHOICE; the spec lets the host move in
between), and the sink's plans (log entry 18). -/
def Obligations.WholeEncodeRun : Prop :=
  ∀ (s : State) (n : SlotIdx) (im : Image) (rest : List HostOp) (as : List Answer),
    s.ph = .idle → s.turns = [] → s.slot n = some im →
    s.hostq = .write 0x00 (encode (.encode n)) :: rest →
    ((s.sink.plans.headD [] = [] ∧ s.sink.rest = some .ok ∧ as = []) ∨
      s.sink.plans.headD [] = List.replicate (16 + 8 * im.pixels.length) .ok ++ as) →
    runSteps (16 + 8 * im.pixels.length + 1) s = .next { s with
      hostq := rest
      l := ⟨3, 0, n, s.arg0, s.arg1⟩
      opos := 16 + 8 * im.pixels.length
      status := ⟨true, false, s.status.ovr, 0⟩
      sink := ⟨as, s.sink.rest, s.sink.taken ++ encStream im, s.sink.plans.tail⟩ }

/-- R146, R147, a whole ENCODE whose sink fails at byte `k` (R91: `.sink fail_at k`), from the CMD write that issues it:
the sink has accepted the first `k` bytes of the encode stream, and the command ends with Io. Two things are the
model's choice: with no turn listed the unit moves whenever it can (log entry 4, DESIGN CHOICE; the spec lets the host
move in between), and the sink's plans (log entry 18). -/
def Obligations.WholeEncodeRunFailing : Prop :=
  ∀ (s : State) (n : SlotIdx) (im : Image) (rest : List HostOp) (k : Nat) (as : List Answer),
    s.ph = .idle → s.turns = [] → s.slot n = some im →
    s.hostq = .write 0x00 (encode (.encode n)) :: rest →
    k < 16 + 8 * im.pixels.length → s.sink.plans.headD [] = List.replicate k .ok ++ .fail :: as →
    runSteps (k + 2) s = .next { s with
      hostq := rest
      l := ⟨3, 0, n, s.arg0, s.arg1⟩
      opos := k
      status := ⟨true, true, s.status.ovr, 1⟩
      sink := ⟨as, s.sink.rest, s.sink.taken ++ (encStream im).take k, s.sink.plans.tail⟩ }

/-- R150: the empty image is exactly the 16-byte header, and that buffer decodes to the empty image. -/
def Obligations.EmptyImageIsHeader : Prop :=
  encStream ⟨0, 0, []⟩ =
    [0x66, 0x61, 0x72, 0x62, 0x66, 0x65, 0x6C, 0x64, 0, 0, 0, 0, 0, 0, 0, 0] ∧
  parseFrame [0x66, 0x61, 0x72, 0x62, 0x66, 0x65, 0x6C, 0x64, 0, 0, 0, 0, 0, 0, 0, 0] =
    .image ⟨0, 0, []⟩

/-! ### PIXELIZE -/

/-- R205: factor 0, or a dimension of the source that the factor does not divide, gives NonExactMultiple (code 5); no
slot and no accumulator changes. -/
def Obligations.PixelizeNonExactMultiple : Prop :=
  ∀ (s : State) (d n : SlotIdx) (im : Image),
    s.running = some (.pixelize d n) → s.slot n = some im →
    (s.l.a0 = 0 ∨ im.width.toNat % s.l.a0.toNat ≠ 0 ∨ im.height.toNat % s.l.a0.toNat ≠ 0) →
    exec (.pixelize d n) s = .next { s with
      ph := .idle
      status := { s.status with done := true, err := true, kind := 5 } }

/-- R155, R158, R159, R160, R163: PIXELIZE with a factor that divides both dimensions completes whenever every block
sum is below 2^64. Output pixel (x, y), at index `x + y*nw`, is on each channel the floor average of its block.
Of the unit only the destination slot, the accumulators, PH and STATUS.DONE change; nothing is claimed of what
the accumulators are left with. -/
def Obligations.PixelizeAveragesBlocks : Prop :=
  ∀ (s : State) (d n : SlotIdx) (im : Image) (f nw nh : Nat),
    s.running = some (.pixelize d n) → d.toNat < s.nslot → s.slot n = some im → im.wf →
    f = s.l.a0.toNat → f ≠ 0 → nw * f = im.width.toNat → nh * f = im.height.toNat →
    (∀ x y, x < nw → y < nh →
      im.blockTotal f (·.r) x y < 2 ^ 64 ∧ im.blockTotal f (·.g) x y < 2 ^ 64 ∧
      im.blockTotal f (·.b) x y < 2 ^ 64 ∧ im.blockTotal f (·.a) x y < 2 ^ 64) →
    within s.caps.pixcap (nw * nh) = true →
    ∃ (out : Image) (acc' : Accs),
      exec (.pixelize d n) s = .next { s with
        img := s.img.set d.toNat out
        acc := acc'
        ph := .idle
        status := { s.status with done := true } } ∧
      out.width.toNat = nw ∧ out.height.toNat = nh ∧ out.pixels.length = nw * nh ∧
      ∀ x y, x < nw → y < nh → ∃ p, out.pixels[x + y * nw]? = some p ∧
        p.r.toNat = im.blockTotal f (·.r) x y / (f * f) ∧
        p.g.toNat = im.blockTotal f (·.g) x y / (f * f) ∧
        p.b.toNat = im.blockTotal f (·.b) x y / (f * f) ∧
        p.a.toNat = im.blockTotal f (·.a) x y / (f * f)

/-- R170: `f*f*65535 ≤ 2^64 − 1` exactly for factors up to 16777344, and with such a factor PIXELIZE of a source the
factor divides completes, whatever the pixels. -/
def Obligations.PixelizeCompletesUpToBound : Prop :=
  (∀ f : Nat, f * f * 65535 ≤ 2 ^ 64 - 1 ↔ f ≤ 16777344) ∧
  (∀ (s : State) (d n : SlotIdx) (im : Image),
    s.running = some (.pixelize d n) → d.toNat < s.nslot → s.slot n = some im → im.wf →
    s.l.a0 ≠ 0 → s.l.a0.toNat ≤ 16777344 → s.caps.pixcap = none →
    im.width.toNat % s.l.a0.toNat = 0 → im.height.toNat % s.l.a0.toNat = 0 →
    ∃ (out : Image) (acc' : Accs), exec (.pixelize d n) s = .next { s with
      img := s.img.set d.toNat out
      acc := acc'
      ph := .idle
      status := { s.status with done := true } })

/-- R170, U1, D21: a run in which some exact block sum reaches 2^64 is refused, under a name of its own: the spec gives
it no meaning. -/
def Obligations.BlockSumOverflowRefused : Prop :=
  ∀ (s : State) (d n : SlotIdx) (im : Image) (f nw nh x y : Nat) (channel : Pixel → Half),
    s.running = some (.pixelize d n) → s.slot n = some im → im.wf →
    f = s.l.a0.toNat → f ≠ 0 → nw * f = im.width.toNat → nh * f = im.height.toNat →
    x < nw → y < nh →
    (channel = (·.r) ∨ channel = (·.g) ∨ channel = (·.b) ∨ channel = (·.a)) →
    2 ^ 64 ≤ im.blockTotal f channel x y →
    exec (.pixelize d n) s = .refused .blockSumOverflow

/-- R167: a uniform image gives a uniform image of the same pixel, of the divided dimensions, for every valid factor,
provided `f*f*v < 2^64` for each channel value v. -/
def Obligations.UniformImagePreserved : Prop :=
  ∀ (s : State) (d n : SlotIdx) (w h : Word) (p : Pixel) (f nw nh : Nat),
    s.running = some (.pixelize d n) → d.toNat < s.nslot →
    s.slot n = some ⟨w, h, List.replicate (w.toNat * h.toNat) p⟩ →
    f = s.l.a0.toNat → f ≠ 0 → nw * f = w.toNat → nh * f = h.toNat →
    f * f * p.r.toNat < 2 ^ 64 → f * f * p.g.toNat < 2 ^ 64 →
    f * f * p.b.toNat < 2 ^ 64 → f * f * p.a.toNat < 2 ^ 64 →
    within s.caps.pixcap (nw * nh) = true →
    ∃ acc' : Accs, exec (.pixelize d n) s = .next { s with
      img := s.img.set d.toNat ⟨BitVec.ofNat 32 nw, BitVec.ofNat 32 nh, List.replicate (nw * nh) p⟩
      acc := acc'
      ph := .idle
      status := { s.status with done := true } }

/-- R169 (a): factor 1 copies the source. -/
def Obligations.FactorOneCopies : Prop :=
  ∀ (s : State) (d n : SlotIdx) (im : Image),
    s.running = some (.pixelize d n) → d.toNat < s.nslot → s.slot n = some im → im.wf → s.l.a0 = 1 →
    within s.caps.pixcap im.pixels.length = true →
    ∃ acc' : Accs, exec (.pixelize d n) s = .next { s with
      img := s.img.set d.toNat im
      acc := acc'
      ph := .idle
      status := { s.status with done := true } }

/-- R165: the order in which the pixels of a block are added does not affect the output pixel, nor whether the sums
fit. -/
def Obligations.SummationOrderIrrelevant : Prop :=
  ∀ (area : Dword) (ps qs : List Pixel), ps.Perm qs →
    averagePixel area ps = averagePixel area qs ∧ sumsFit ps = sumsFit qs

/-! ### Arithmetic units -/

/-- R181: MUL64 is the exact product and never wraps. -/
def Obligations.ProductExact : Prop :=
  (∀ a b : Word, (mul64 a b).toNat = a.toNat * b.toNat) ∧
  mul64 0xFFFFFFFF 0xFFFFFFFF = 0xFFFFFFFE00000001 ∧ mul64 65536 65536 = 0x100000000

/-- R182, R185: the dividers give the floor quotient and the remainder; DIV64 keeps the whole quotient whenever it is
at most 65535. -/
def Obligations.DividersFloor : Prop :=
  (∀ a b : Word, b ≠ 0 →
    a.toNat = (div32 a b).toNat * b.toNat + (mod32 a b).toNat ∧ (mod32 a b).toNat < b.toNat) ∧
  (∀ (sum area : Dword), area ≠ 0 → sum.toNat ≤ area.toNat * 65535 →
    (div64 sum area).toNat * area.toNat ≤ sum.toNat ∧
    sum.toNat < ((div64 sum area).toNat + 1) * area.toNat)

/-- R186: whenever the exact sums of a block are below 2^64, the accumulators hold exactly those sums. -/
def Obligations.AccumulatorsExact : Prop :=
  ∀ block : List Pixel, sumsFit block = true →
    (accumulate block).r.toNat = exactSum (·.r) block ∧ (accumulate block).g.toNat = exactSum (·.g) block ∧
    (accumulate block).b.toNat = exactSum (·.b) block ∧ (accumulate block).a.toNat = exactSum (·.a) block

/-! ### Host registers -/

/-- R33: the fields of STATUS as a read of offset 0x0C returns them; the read changes nothing of the unit, and a
write is ignored. -/
def Obligations.StatusRegister : Prop :=
  ∀ (s : State) (v : Word),
    s.readReg 0x0C = s.statusWord ∧
    s.statusWord.getLsbD 0 = decide (s.ph ≠ .idle) ∧
    s.statusWord.getLsbD 1 = s.status.done ∧ s.statusWord.getLsbD 2 = s.status.err ∧
    s.statusWord.getLsbD 3 = s.status.ovr ∧ s.statusWord.extractLsb' 4 4 = s.status.kind ∧
    s.statusWord.extractLsb' 8 24 = 0 ∧
    hostAct (.read 0x0C) s = .next { s with seen := s.seen ++ [s.statusWord] } ∧
    hostAct (.write 0x0C v) s = .next s

/-- R30 to R32, R39: what a read of each mapped register returns, in every state and phase, with no side effect on the
unit; and that a write of ARG0 or ARG1 stores the value, and of a slot's dimensions nothing. -/
def Obligations.RegisterMap : Prop :=
  ∀ (s : State) (v : Word),
    hostAct (.read 0x00) s = .next { s with seen := s.seen ++ [0] } ∧
    hostAct (.read 0x04) s = .next { s with seen := s.seen ++ [s.arg0] } ∧
    hostAct (.read 0x08) s = .next { s with seen := s.seen ++ [s.arg1] } ∧
    hostAct (.write 0x04 v) s = .next { s with arg0 := v } ∧
    hostAct (.write 0x08 v) s = .next { s with arg1 := v } ∧
    ∀ (n : Nat) (im : Image), s.img[n]? = some im →
      hostAct (.read (0x20 + 8 * n)) s = .next { s with seen := s.seen ++ [im.width] } ∧
      hostAct (.read (0x24 + 8 * n)) s = .next { s with seen := s.seen ++ [im.height] } ∧
      hostAct (.write (0x20 + 8 * n) v) s = .next s ∧
      hostAct (.write (0x24 + 8 * n) v) s = .next s

/-- R45: an aligned access with no register behind it reads 0 and writes nothing; a write to a read-only register is
ignored. R58: a narrower or unaligned access is not part of the interface; refusing it under a name of its own, and
the narrow access as one action without width or data, is the model's (log entry 11, DEDUCED and DESIGN CHOICE). -/
def Obligations.UnmappedAccesses : Prop :=
  ∀ (s : State) (off : Nat) (v : Word),
    (off % 4 = 0 → off ≠ 0x00 → off ≠ 0x04 → off ≠ 0x08 → off ≠ 0x0C →
      (∀ n, n < s.nslot → off ≠ 0x20 + 8 * n ∧ off ≠ 0x24 + 8 * n) →
      hostAct (.read off) s = .next { s with seen := s.seen ++ [0] } ∧
      hostAct (.write off v) s = .next s) ∧
    (off = 0x0C ∨ (∃ n, n < s.nslot ∧ (off = 0x20 + 8 * n ∨ off = 0x24 + 8 * n)) →
      hostAct (.write off v) s = .next s) ∧
    (off % 4 ≠ 0 → hostAct (.read off) s = .refused .unalignedAccess ∧
      hostAct (.write off v) s = .refused .unalignedAccess) ∧
    hostAct (.narrow off) s = .refused .narrowAccess

/-! ### Reset -/

/-- R230, R46: a reset step, in any state, sets every piece of the unit's state to its reset value, and leaves the
agents outside the unit as they are (R231, R232). -/
def Obligations.ResetStep : Prop :=
  ∀ (s : State) (ts : List Turn), s.turns = .reset :: ts →
    step s = .next { s with
      turns := ts
      img := List.replicate s.nslot ⟨0, 0, []⟩
      arg0 := 0
      arg1 := 0
      status := ⟨false, false, false, 0⟩
      ph := .idle
      l := ⟨0, 0, 0, 0, 0⟩
      ibuf := []
      opos := 0
      acc := ⟨0, 0, 0, 0⟩ }

/-- R46: the reset state, field by field, of the default unit with two slots; STATUS reads 0, and no port is active
(R232). -/
def Obligations.ResetValues : Prop :=
  State.reset.img = [⟨0, 0, []⟩, ⟨0, 0, []⟩] ∧ State.reset.arg0 = 0 ∧ State.reset.arg1 = 0 ∧
  State.reset.status = ⟨false, false, false, 0⟩ ∧ State.reset.statusWord = 0 ∧
  State.reset.ph = .idle ∧ State.reset.l = ⟨0, 0, 0, 0, 0⟩ ∧ State.reset.ibuf = [] ∧
  State.reset.opos = 0 ∧ State.reset.acc = ⟨0, 0, 0, 0⟩ ∧
  State.reset.inReady = false ∧ State.reset.outValid = false

/-- The invariant of the unit holds after reset, for every slot count and every capacities (R24, R46). -/
def Obligations.ResetMeetsInvariant : Prop :=
  ∀ (nslot : Nat) (caps : Caps), 2 ≤ nslot → nslot ≤ 16 → (State.resetOf nslot caps).Inv

/-! ### The whole machine -/

/-- Every step keeps the invariant of the unit: among others, every slot always holds as many pixels as its dimensions
declare (R24), BUSY and DONE are never both 1 (R35), the unused KIND values never occur (R36), the buffer is
empty outside a DECODE (R43), and the latch of a command in progress is legal (R38, R88). -/
def Obligations.StepKeepsInvariant : Prop :=
  ∀ s t : State, s.Inv → step s = .next t → t.Inv

/-- Under the invariant no step ends in a fault: no command ever names a slot that does not exist or reads a pixel
out of range (R21, R51, R161). -/
def Obligations.StepNeverFaults : Prop :=
  ∀ s : State, s.Inv → safeStep s

/-- R42: but for reset, the only way out of a phase is its own: idle never enters DEC_PARSE, a busy phase stays, or goes
from DEC_READ to DEC_PARSE, or completes, and then reports DONE. -/
def Obligations.PhaseTransitions : Prop :=
  ∀ s t : State, s.notReset → step s = .next t →
    (s.ph = .idle → t.ph ≠ .decParse) ∧
    (s.ph ≠ .idle → t.ph = s.ph ∨ (s.ph = .decRead ∧ t.ph = .decParse) ∨
      (t.ph = .idle ∧ t.status.done = true))

/-- R25, R26: but for reset, a slot changes only in the completion step of a NEW, a DECODE or a PIXELIZE, and then only
the destination slot of the latch. -/
def Obligations.SlotChangesOnlyAtCommit : Prop :=
  ∀ (s t : State) (n : Nat), s.notReset → step s = .next t → t.img[n]? ≠ s.img[n]? →
    n = s.l.dst.toNat ∧ (s.ph = .newRun ∨ s.ph = .decParse ∨ s.ph = .pixRun) ∧
    t.ph = .idle ∧ t.status.done = true

/-- R210: a step that reports an error changes no slot. -/
def Obligations.ErrorChangesNoSlot : Prop :=
  ∀ s t : State, s.Inv → s.notReset → step s = .next t → t.status.err = true → t.img = s.img

/-- R63: a token is consumed only in DEC_READ, which is where `in_ready` is 1, in the order offered, at most one a step. -/
def Obligations.TokensConsumedOnlyInDecRead : Prop :=
  ∀ s t : State, (s.inReady = true ↔ s.ph = .decRead) ∧ (step s = .next t →
    t.beats = s.beats ∨ (s.ph = .decRead ∧ ∃ b, s.beats = b :: t.beats))

/-- R64, R65: a byte reaches the sink only in ENC_WRITE, which is where `out_valid` is 1; it is byte OPOS of the encode stream of the source slot, and
OPOS counts it. No byte the sink has accepted is ever taken back. -/
def Obligations.BytesLeaveInOrder : Prop :=
  ∀ s t : State, (s.outValid = true ↔ s.ph = .encWrite) ∧ (step s = .next t →
    t.sink.taken = s.sink.taken ∨
    (s.ph = .encWrite ∧ ∃ b, s.outData = some b ∧ t.sink.taken = s.sink.taken ++ [b] ∧ t.opos = s.opos + 1))

/-- R238: no timeout. A DECODE whose stream is never closed (the source has DATA tokens left, or none), and an ENCODE
whose sink takes no byte, never leave their phase: without a reset, after any number of steps they are still there,
DONE and the latch as they were, whatever the host wrote meanwhile, and no slot has changed. -/
def Obligations.NoTimeout : Prop :=
  ∀ (n : Nat) (s t : State), Turn.reset ∉ s.turns →
    ((s.ph = .decRead ∧ ∀ b ∈ s.beats, b.kind = 0) ∨
     (s.ph = .encWrite ∧ s.sink.next = none ∧ ∃ im, s.slot s.l.src = some im ∧ s.opos < 16 + 8 * im.pixels.length)) →
    runSteps n s = .next t →
    t.ph = s.ph ∧ t.status.done = s.status.done ∧ t.l = s.l ∧ t.img = s.img ∧ t.opos = s.opos ∧
    ∃ got, t.ibuf = s.ibuf ++ got

/-- R37: OVR is set by a CMD write while busy, by nothing else, and cleared by reset only. -/
def Obligations.OverrunSticky : Prop :=
  ∀ s t : State, s.notReset → step s = .next t →
    (s.status.ovr = true → t.status.ovr = true) ∧
    (s.status.ovr = false → t.status.ovr = true →
      s.ph ≠ .idle ∧ ∃ w rest, s.hostq = .write 0x00 w :: rest) ∧
    (∀ w rest ts, s.turns = .host :: ts → s.hostq = .write 0x00 w :: rest → s.ph ≠ .idle → t.status.ovr = true)

/-- R36, R214, R241: the outcome of the last command is kept, whatever else happens to an idle unit, until a word is
written to CMD or the unit is reset. -/
def Obligations.OutcomeKept : Prop :=
  ∀ s t : State, s.notReset → step s = .next t → s.ph = .idle →
    (∀ w rest, s.hostq ≠ .write 0x00 w :: rest) → t.status = s.status ∧ t.ph = .idle
end

