-- ==== Sys2Proof/Laws/Blocks.lean ====
section
/-! SUPPORT. The addresses of PIXELIZE: the indices of a block stay in range and sum to the block's total, and the
output pixels are enumerated in row-major order. -/

namespace Sys2Proof.Machine

theorem sum_map_range (n : Nat) (g : Nat → Nat) : ((List.range n).map g).sum = ∑ i ∈ Finset.range n, g i := by
  rw [Finset.sum_range, ← List.sum_ofFn]
  congr 1
  exact List.ext_getElem (by simp) (by simp)

theorem sum_map_blockIndices (w f x y : Nat) (g : Nat → Nat) :
    ((blockIndices w f x y).map g).sum =
      ∑ dy ∈ Finset.range f, ∑ dx ∈ Finset.range f, g ((x * f + dx) + (y * f + dy) * w) := by
  unfold blockIndices
  rw [← sum_map_range, List.map_flatMap, List.flatMap, List.sum_flatten, List.map_map]
  congr 1
  apply List.map_congr_left
  intro dy _
  simp only [Function.comp, List.map_map]
  rw [← sum_map_range]; rfl

theorem mem_blockIndices {w f x y i : Nat} :
    i ∈ blockIndices w f x y ↔ ∃ dy < f, ∃ dx < f, blockIndex w f x y dx dy = i := by
  simp [blockIndices]

theorem blockIndices_length (w f x y : Nat) : (blockIndices w f x y).length = f * f := by
  simp [blockIndices, List.length_flatMap, List.map_const']

/-- A block of an output pixel lies inside the source image (R161). -/
theorem blockIndex_lt {w h f nw nh x y dx dy : Nat} (hw : nw * f = w) (hh : nh * f = h) (hx : x < nw)
    (hy : y < nh) (hdx : dx < f) (hdy : dy < f) : blockIndex w f x y dx dy < w * h := by
  have column : x * f + dx < w := by
    have : (x + 1) * f ≤ nw * f := Nat.mul_le_mul_right _ hx
    rw [← hw]; nlinarith
  have row : y * f + dy + 1 ≤ h := by
    have : (y + 1) * f ≤ nh * f := Nat.mul_le_mul_right _ hy
    rw [← hh]; nlinarith
  have : (y * f + dy + 1) * w ≤ h * w := Nat.mul_le_mul_right _ row
  unfold blockIndex
  nlinarith

/-- Reading in-range indices succeeds, and the exact sum of a channel is the sum of its values there. -/
theorem readPixels_some (px : List Pixel) (is : List Nat) (h : ∀ i ∈ is, i < px.length) :
    ∃ ps, readPixels px is = some ps ∧ ps.length = is.length ∧ (∀ p ∈ ps, p ∈ px) ∧
      ∀ c, exactSum c ps = (is.map (fun i => (px[i]?).elim 0 (fun p => (c p).toNat))).sum := by
  induction is with
  | nil => exact ⟨[], rfl, rfl, by simp, fun c => rfl⟩
  | cons i is ih =>
    obtain ⟨ps, h1, h2, h3, h4⟩ := ih (fun j hj => h j (by simp [hj]))
    have hi : i < px.length := h i (by simp)
    refine ⟨px[i] :: ps, by simp [readPixels, h1, hi], by simp [h2], ?_, fun c => ?_⟩
    · intro p hp
      rcases List.mem_cons.1 hp with rfl | hp
      · simp
      · exact h3 p hp
    · have := h4 c
      simp only [exactSum] at this ⊢
      simp [this, hi]

/-- The block of an output pixel of a divisible image is read whole, and its exact sums are the block's totals
(R159, R161). -/
theorem readPixels_block {im : Image} (hwf : im.wf) {f nw nh x y : Nat} (hw : nw * f = im.width.toNat)
    (hh : nh * f = im.height.toNat) (hx : x < nw) (hy : y < nh) :
    ∃ block, readPixels im.pixels (blockIndices im.width.toNat f x y) = some block ∧
      block.length = f * f ∧ ∀ c, exactSum c block = im.blockTotal f c x y := by
  obtain ⟨block, h1, h2, -, h4⟩ := readPixels_some im.pixels (blockIndices im.width.toNat f x y) (by
    intro i hi
    obtain ⟨dy, hdy, dx, hdx, rfl⟩ := mem_blockIndices.1 hi
    rw [show im.pixels.length = _ from hwf]
    exact blockIndex_lt hw hh hx hy hdx hdy)
  exact ⟨block, h1, by rw [h2, blockIndices_length], fun c => by rw [h4 c, sum_map_blockIndices]; rfl⟩

/-- Reading blocks succeeds when each block can be read, and what holds of each block holds of the list. -/
theorem readBlocks_some (im : Image) (f : Nat) (cs : List (Nat × Nat)) (P : List Pixel → Nat → Nat → Prop)
    (h : ∀ x y, (x, y) ∈ cs →
      ∃ block, readPixels im.pixels (blockIndices im.width.toNat f x y) = some block ∧ P block x y) :
    ∃ blocks, readBlocks im f cs = some blocks ∧
      List.Forall₂ (fun block (c : Nat × Nat) => P block c.1 c.2) blocks cs := by
  induction cs with
  | nil => exact ⟨[], rfl, .nil⟩
  | cons c cs ih =>
    obtain ⟨x, y⟩ := c
    obtain ⟨block, h1, h2⟩ := h x y (by simp)
    obtain ⟨blocks, h3, h4⟩ := ih (fun x y hm => h x y (by simp [hm]))
    exact ⟨block :: blocks, by simp [readBlocks, h1, h3], .cons h2 h4⟩

theorem outCoords_length (nw nh : Nat) : (outCoords nw nh).length = nw * nh := by
  simp [outCoords, List.length_flatMap, List.map_const', mul_comm]

theorem mem_outCoords {nw nh x y : Nat} : (x, y) ∈ outCoords nw nh ↔ x < nw ∧ y < nh := by
  simp [outCoords]; tauto

/-- Output pixel (x, y) is at index `x + y*nw` (R163). -/
theorem outCoords_getElem? {nw nh x y : Nat} (hx : x < nw) (hy : y < nh) :
    (outCoords nw nh)[x + y * nw]? = some (x, y) := by
  induction nh with
  | zero => omega
  | succ nh ih =>
    have last : outCoords nw (nh + 1) = outCoords nw nh ++ (List.range nw).map (fun x => (x, nh)) := by
      simp [outCoords, List.range_succ, List.flatMap_append]
    rw [last]
    by_cases h : y < nh
    · rw [List.getElem?_append_left, ih h]
      rw [outCoords_length]
      have : (y + 1) * nw ≤ nh * nw := Nat.mul_le_mul_right _ h
      nlinarith
    · obtain rfl : y = nh := by omega
      rw [List.getElem?_append_right (by rw [outCoords_length]; nlinarith), outCoords_length,
        show x + y * nw - nw * y = x by rw [mul_comm nw y]; omega]
      simp [hx]

/-- The exact sum of a channel over a block of equal pixels. -/
theorem blockTotal_replicate {w h : Word} {p : Pixel} (c : Pixel → Half) {f nw nh x y : Nat}
    (hw : nw * f = w.toNat) (hh : nh * f = h.toNat) (hx : x < nw) (hy : y < nh) :
    (Image.mk w h (List.replicate (w.toNat * h.toNat) p)).blockTotal f c x y = f * f * (c p).toNat := by
  unfold Image.blockTotal
  have each : ∀ dy ∈ Finset.range f, ∀ dx ∈ Finset.range f,
      (Image.mk w h (List.replicate (w.toNat * h.toNat) p)).channelAt c
        ((x * f + dx) + (y * f + dy) * w.toNat) = (c p).toNat := by
    intro dy hdy dx hdx
    have hlt := blockIndex_lt hw hh hx hy (Finset.mem_range.1 hdx) (Finset.mem_range.1 hdy)
    unfold blockIndex at hlt
    simp [Image.channelAt, hlt]
  rw [Finset.sum_congr rfl (fun dy hdy => Finset.sum_congr rfl (each dy hdy))]
  simp; ring

end Sys2Proof.Machine
end

