-- ==== Sys2Proof/Laws/PerInstr.lean ====
section
/-! SUPPORT. Statements about every command as syntax, one lemma per constructor. -/

namespace Sys2Proof.Laws.WordFields

/-- The command word of `i` holds the operation code and the slot fields of `i`, and its reserved bits 31:16 are 0
(spec/30_encoding.md R81, R82). -/
def Statement (i : Instr) : Prop :=
  wordOpc (encode i) = i.opc ∧ wordDst (encode i) = i.dstField ∧ wordSrc (encode i) = i.srcField ∧
  (encode i).extractLsb' 16 16 = 0

/-- Fields laid side by side are read back (R81). -/
theorem fields_of_append (src dst : SlotIdx) (opc : Byte) :
    wordOpc ((0 : BitVec 16) ++ src ++ dst ++ opc) = opc ∧
    wordDst ((0 : BitVec 16) ++ src ++ dst ++ opc) = dst ∧
    wordSrc ((0 : BitVec 16) ++ src ++ dst ++ opc) = src ∧
    ((0 : BitVec 16) ++ src ++ dst ++ opc).extractLsb' 16 16 = 0 := by
  unfold wordOpc wordDst wordSrc
  refine ⟨?_, ?_, ?_, ?_⟩ <;> apply BitVec.eq_of_getLsbD_eq <;> intro k hk <;>
    simp only [BitVec.getLsbD_extractLsb', BitVec.getLsbD_append] <;> interval_cases k <;> simp

theorem new (dst : SlotIdx) : Statement (.new dst) := fields_of_append _ _ _
theorem decode (dst : SlotIdx) : Statement (.decode dst) := fields_of_append _ _ _
theorem encode (src : SlotIdx) : Statement (.encode src) := fields_of_append _ _ _
theorem pixelize (dst src : SlotIdx) : Statement (.pixelize dst src) := fields_of_append _ _ _

end Sys2Proof.Laws.WordFields
end

