-- ==== Sys2Proof/Laws/Decode.lean ====
section
/-! SUPPORT. What selecting a row of the table of R83 says about a word's fields, and a word as the concatenation of
its fields. -/

namespace Sys2Proof

/-- A word is its reserved field, SRC, DST and OPC laid side by side (R81). -/
theorem word_eq_fields (w : Word) :
    w.extractLsb' 16 16 ++ wordSrc w ++ wordDst w ++ wordOpc w = w := by
  unfold wordOpc wordDst wordSrc
  apply BitVec.eq_of_getLsbD_eq
  intro k hk
  simp only [BitVec.getLsbD_extractLsb', BitVec.getLsbD_append]
  interval_cases k <;> simp

/-- Two concatenations of four fields are equal when the fields are. -/
theorem fields_inj {a a' : BitVec 16} {s s' d d' : SlotIdx} {o o' : Byte} :
    a ++ s ++ d ++ o = a' ++ s' ++ d' ++ o' ↔ a = a' ∧ s = s' ∧ d = d' ∧ o = o' := by
  have split : ∀ {n m : Nat} {x x' : BitVec n} {y y' : BitVec m}, x ++ y = x' ++ y' → x = x' ∧ y = y' := by
    intro n m x x' y y' h
    have bit : ∀ k, (x ++ y).getLsbD k = (x' ++ y').getLsbD k := fun k => by rw [h]
    constructor <;> apply BitVec.eq_of_getLsbD_eq <;> intro k hk
    · simpa [BitVec.getLsbD_append] using bit (m + k)
    · simpa [BitVec.getLsbD_append, hk] using bit k
  constructor
  · intro h
    obtain ⟨h, ho⟩ := split h
    obtain ⟨h, hd⟩ := split h
    obtain ⟨h, hs⟩ := split h
    exact ⟨h, hs, hd, ho⟩
  · rintro ⟨rfl, rfl, rfl, rfl⟩
    rfl

/-- Selecting a row is agreeing with it field by field (R83). -/
theorem OpcodeRow.selects_iff_fields (m1 v1 : BitVec 16) (m2 v2 m3 v3 : SlotIdx) (m4 v4 : Byte) (w : Word) :
    OpcodeRow.selects ⟨m1 ++ m2 ++ m3 ++ m4, v1 ++ v2 ++ v3 ++ v4⟩ w = true ↔
      w.extractLsb' 16 16 &&& m1 = v1 ∧ wordSrc w &&& m2 = v2 ∧ wordDst w &&& m3 = v3 ∧
      wordOpc w &&& m4 = v4 := by
  conv_lhs => rw [← word_eq_fields w]
  rw [OpcodeRow.selects, beq_iff_eq, ← fields_inj, ← BitVec.and_append, ← BitVec.and_append,
    ← BitVec.and_append]

/-- Row NEW (R83), field by field. -/
theorem rowNew_selects_iff (w : Word) :
    rowNew.selects w = true ↔ w.extractLsb' 16 16 = 0 ∧ wordSrc w = 0 ∧ wordOpc w = 1 := by
  have h := OpcodeRow.selects_iff_fields (BitVec.allOnes 16) 0 (BitVec.allOnes 4) 0 0#4 0#4 (BitVec.allOnes 8) 1 w
  simp only [BitVec.and_allOnes, BitVec.and_zero, true_and] at h
  exact h

/-- Row DECODE (R83), field by field. -/
theorem rowDecode_selects_iff (w : Word) :
    rowDecode.selects w = true ↔ w.extractLsb' 16 16 = 0 ∧ wordSrc w = 0 ∧ wordOpc w = 2 := by
  have h := OpcodeRow.selects_iff_fields (BitVec.allOnes 16) 0 (BitVec.allOnes 4) 0 0#4 0#4 (BitVec.allOnes 8) 2 w
  simp only [BitVec.and_allOnes, BitVec.and_zero, true_and] at h
  exact h

/-- Row ENCODE (R83), field by field. -/
theorem rowEncode_selects_iff (w : Word) :
    rowEncode.selects w = true ↔ w.extractLsb' 16 16 = 0 ∧ wordDst w = 0 ∧ wordOpc w = 3 := by
  have h := OpcodeRow.selects_iff_fields (BitVec.allOnes 16) 0 0#4 0#4 (BitVec.allOnes 4) 0 (BitVec.allOnes 8) 3 w
  simp only [BitVec.and_allOnes, BitVec.and_zero, true_and] at h
  exact h

/-- Row PIXELIZE (R83), field by field. -/
theorem rowPixelize_selects_iff (w : Word) :
    rowPixelize.selects w = true ↔ w.extractLsb' 16 16 = 0 ∧ wordOpc w = 4 := by
  have h := OpcodeRow.selects_iff_fields (BitVec.allOnes 16) 0 0#4 0#4 0#4 0#4 (BitVec.allOnes 8) 4 w
  simp only [BitVec.and_allOnes, BitVec.and_zero, true_and] at h
  exact h

end Sys2Proof
end

