-- ==== Sys2Proof/Laws/State.lean ====
section
/-! SUPPORT. One lemma per field per update of State, true by rfl, so that no proof unfolds a record update; and what
each update of STATUS does to each of its fields. -/

namespace Sys2Proof.Machine

variable (s : State)

/-! ### State.issue -/

@[simp] theorem State.issue_img (i : Instr) : (s.issue i).img = s.img := rfl
@[simp] theorem State.issue_arg0 (i : Instr) : (s.issue i).arg0 = s.arg0 := rfl
@[simp] theorem State.issue_arg1 (i : Instr) : (s.issue i).arg1 = s.arg1 := rfl
@[simp] theorem State.issue_status (i : Instr) : (s.issue i).status = s.status.atIssue := rfl
@[simp] theorem State.issue_ph (i : Instr) : (s.issue i).ph = firstPhase i := rfl
@[simp] theorem State.issue_l (i : Instr) : (s.issue i).l = ⟨i.opc, i.dstField, i.srcField, s.arg0, s.arg1⟩ := rfl
@[simp] theorem State.issue_ibuf (i : Instr) : (s.issue i).ibuf = s.ibuf := rfl
@[simp] theorem State.issue_opos (i : Instr) : (s.issue i).opos = s.opos := rfl
@[simp] theorem State.issue_acc (i : Instr) : (s.issue i).acc = s.acc := rfl
@[simp] theorem State.issue_caps (i : Instr) : (s.issue i).caps = s.caps := rfl
@[simp] theorem State.issue_hostq (i : Instr) : (s.issue i).hostq = s.hostq := rfl
@[simp] theorem State.issue_seen (i : Instr) : (s.issue i).seen = s.seen := rfl
@[simp] theorem State.issue_beats (i : Instr) : (s.issue i).beats = s.beats := rfl
@[simp] theorem State.issue_sink (i : Instr) : (s.issue i).sink = s.sink := rfl
@[simp] theorem State.issue_turns (i : Instr) : (s.issue i).turns = s.turns := rfl

/-! ### State.fail -/

@[simp] theorem State.fail_img (k : ErrKind) : (s.fail k).img = s.img := rfl
@[simp] theorem State.fail_arg0 (k : ErrKind) : (s.fail k).arg0 = s.arg0 := rfl
@[simp] theorem State.fail_arg1 (k : ErrKind) : (s.fail k).arg1 = s.arg1 := rfl
@[simp] theorem State.fail_status (k : ErrKind) : (s.fail k).status = s.status.failed k := rfl
@[simp] theorem State.fail_ph (k : ErrKind) : (s.fail k).ph = .idle := rfl
@[simp] theorem State.fail_l (k : ErrKind) : (s.fail k).l = s.l := rfl
@[simp] theorem State.fail_ibuf (k : ErrKind) : (s.fail k).ibuf = s.ibuf := rfl
@[simp] theorem State.fail_opos (k : ErrKind) : (s.fail k).opos = s.opos := rfl
@[simp] theorem State.fail_acc (k : ErrKind) : (s.fail k).acc = s.acc := rfl
@[simp] theorem State.fail_caps (k : ErrKind) : (s.fail k).caps = s.caps := rfl
@[simp] theorem State.fail_hostq (k : ErrKind) : (s.fail k).hostq = s.hostq := rfl
@[simp] theorem State.fail_seen (k : ErrKind) : (s.fail k).seen = s.seen := rfl
@[simp] theorem State.fail_beats (k : ErrKind) : (s.fail k).beats = s.beats := rfl
@[simp] theorem State.fail_sink (k : ErrKind) : (s.fail k).sink = s.sink := rfl
@[simp] theorem State.fail_turns (k : ErrKind) : (s.fail k).turns = s.turns := rfl

/-! ### State.succeed -/

@[simp] theorem State.succeed_img : s.succeed.img = s.img := rfl
@[simp] theorem State.succeed_arg0 : s.succeed.arg0 = s.arg0 := rfl
@[simp] theorem State.succeed_arg1 : s.succeed.arg1 = s.arg1 := rfl
@[simp] theorem State.succeed_status : s.succeed.status = s.status.succeeded := rfl
@[simp] theorem State.succeed_ph : s.succeed.ph = .idle := rfl
@[simp] theorem State.succeed_l : s.succeed.l = s.l := rfl
@[simp] theorem State.succeed_ibuf : s.succeed.ibuf = s.ibuf := rfl
@[simp] theorem State.succeed_opos : s.succeed.opos = s.opos := rfl
@[simp] theorem State.succeed_acc : s.succeed.acc = s.acc := rfl
@[simp] theorem State.succeed_caps : s.succeed.caps = s.caps := rfl
@[simp] theorem State.succeed_hostq : s.succeed.hostq = s.hostq := rfl
@[simp] theorem State.succeed_seen : s.succeed.seen = s.seen := rfl
@[simp] theorem State.succeed_beats : s.succeed.beats = s.beats := rfl
@[simp] theorem State.succeed_sink : s.succeed.sink = s.sink := rfl
@[simp] theorem State.succeed_turns : s.succeed.turns = s.turns := rfl

/-! ### State.emptyBuffer -/

@[simp] theorem State.emptyBuffer_img : s.emptyBuffer.img = s.img := rfl
@[simp] theorem State.emptyBuffer_arg0 : s.emptyBuffer.arg0 = s.arg0 := rfl
@[simp] theorem State.emptyBuffer_arg1 : s.emptyBuffer.arg1 = s.arg1 := rfl
@[simp] theorem State.emptyBuffer_status : s.emptyBuffer.status = s.status := rfl
@[simp] theorem State.emptyBuffer_ph : s.emptyBuffer.ph = s.ph := rfl
@[simp] theorem State.emptyBuffer_l : s.emptyBuffer.l = s.l := rfl
@[simp] theorem State.emptyBuffer_ibuf : s.emptyBuffer.ibuf = [] := rfl
@[simp] theorem State.emptyBuffer_opos : s.emptyBuffer.opos = s.opos := rfl
@[simp] theorem State.emptyBuffer_acc : s.emptyBuffer.acc = s.acc := rfl
@[simp] theorem State.emptyBuffer_caps : s.emptyBuffer.caps = s.caps := rfl
@[simp] theorem State.emptyBuffer_hostq : s.emptyBuffer.hostq = s.hostq := rfl
@[simp] theorem State.emptyBuffer_seen : s.emptyBuffer.seen = s.seen := rfl
@[simp] theorem State.emptyBuffer_beats : s.emptyBuffer.beats = s.beats := rfl
@[simp] theorem State.emptyBuffer_sink : s.emptyBuffer.sink = s.sink := rfl
@[simp] theorem State.emptyBuffer_turns : s.emptyBuffer.turns = s.turns := rfl

/-! ### State.drop -/

@[simp] theorem State.drop_img : s.drop.img = s.img := rfl
@[simp] theorem State.drop_arg0 : s.drop.arg0 = s.arg0 := rfl
@[simp] theorem State.drop_arg1 : s.drop.arg1 = s.arg1 := rfl
@[simp] theorem State.drop_status : s.drop.status = s.status.overrun := rfl
@[simp] theorem State.drop_ph : s.drop.ph = s.ph := rfl
@[simp] theorem State.drop_l : s.drop.l = s.l := rfl
@[simp] theorem State.drop_ibuf : s.drop.ibuf = s.ibuf := rfl
@[simp] theorem State.drop_opos : s.drop.opos = s.opos := rfl
@[simp] theorem State.drop_acc : s.drop.acc = s.acc := rfl
@[simp] theorem State.drop_caps : s.drop.caps = s.caps := rfl
@[simp] theorem State.drop_hostq : s.drop.hostq = s.hostq := rfl
@[simp] theorem State.drop_seen : s.drop.seen = s.seen := rfl
@[simp] theorem State.drop_beats : s.drop.beats = s.beats := rfl
@[simp] theorem State.drop_sink : s.drop.sink = s.sink := rfl
@[simp] theorem State.drop_turns : s.drop.turns = s.turns := rfl

/-! ### State.rst -/

@[simp] theorem State.rst_img : s.rst.img = List.replicate s.nslot Image.empty := rfl
@[simp] theorem State.rst_arg0 : s.rst.arg0 = 0 := rfl
@[simp] theorem State.rst_arg1 : s.rst.arg1 = 0 := rfl
@[simp] theorem State.rst_status : s.rst.status = Status.zero := rfl
@[simp] theorem State.rst_ph : s.rst.ph = .idle := rfl
@[simp] theorem State.rst_l : s.rst.l = Latch.zero := rfl
@[simp] theorem State.rst_ibuf : s.rst.ibuf = [] := rfl
@[simp] theorem State.rst_opos : s.rst.opos = 0 := rfl
@[simp] theorem State.rst_acc : s.rst.acc = Accs.zero := rfl
@[simp] theorem State.rst_caps : s.rst.caps = s.caps := rfl
@[simp] theorem State.rst_hostq : s.rst.hostq = s.hostq := rfl
@[simp] theorem State.rst_seen : s.rst.seen = s.seen := rfl
@[simp] theorem State.rst_beats : s.rst.beats = s.beats := rfl
@[simp] theorem State.rst_sink : s.rst.sink = s.sink := rfl
@[simp] theorem State.rst_turns : s.rst.turns = s.turns := rfl

/-! ### State.placeCommand -/

@[simp] theorem State.placeCommand_img (w : Word) : (s.placeCommand w).img = s.img := rfl
@[simp] theorem State.placeCommand_arg0 (w : Word) : (s.placeCommand w).arg0 = s.arg0 := rfl
@[simp] theorem State.placeCommand_arg1 (w : Word) : (s.placeCommand w).arg1 = s.arg1 := rfl
@[simp] theorem State.placeCommand_status (w : Word) : (s.placeCommand w).status = s.status := rfl
@[simp] theorem State.placeCommand_ph (w : Word) : (s.placeCommand w).ph = .idle := rfl
@[simp] theorem State.placeCommand_l (w : Word) : (s.placeCommand w).l = s.l := rfl
@[simp] theorem State.placeCommand_ibuf (w : Word) : (s.placeCommand w).ibuf = [] := rfl
@[simp] theorem State.placeCommand_opos (w : Word) : (s.placeCommand w).opos = s.opos := rfl
@[simp] theorem State.placeCommand_acc (w : Word) : (s.placeCommand w).acc = s.acc := rfl
@[simp] theorem State.placeCommand_caps (w : Word) : (s.placeCommand w).caps = s.caps := rfl
@[simp] theorem State.placeCommand_hostq (w : Word) : (s.placeCommand w).hostq = .write 0x00 w :: s.hostq := rfl
@[simp] theorem State.placeCommand_seen (w : Word) : (s.placeCommand w).seen = s.seen := rfl
@[simp] theorem State.placeCommand_beats (w : Word) : (s.placeCommand w).beats = s.beats := rfl
@[simp] theorem State.placeCommand_sink (w : Word) : (s.placeCommand w).sink = s.sink := rfl
@[simp] theorem State.placeCommand_turns (w : Word) : (s.placeCommand w).turns = .host :: s.turns := rfl

/-! ### NSLOT and slots depend on the slot file only -/

@[simp] theorem State.issue_nslot (i : Instr) : (s.issue i).nslot = s.nslot := rfl
@[simp] theorem State.issue_slot (i : Instr) (d : SlotIdx) : (s.issue i).slot d = s.slot d := rfl
@[simp] theorem State.fail_nslot (k : ErrKind) : (s.fail k).nslot = s.nslot := rfl
@[simp] theorem State.fail_slot (k : ErrKind) (d : SlotIdx) : (s.fail k).slot d = s.slot d := rfl
@[simp] theorem State.succeed_nslot : s.succeed.nslot = s.nslot := rfl
@[simp] theorem State.succeed_slot (d : SlotIdx) : s.succeed.slot d = s.slot d := rfl
@[simp] theorem State.emptyBuffer_nslot : s.emptyBuffer.nslot = s.nslot := rfl
@[simp] theorem State.emptyBuffer_slot (d : SlotIdx) : s.emptyBuffer.slot d = s.slot d := rfl
@[simp] theorem State.drop_nslot : s.drop.nslot = s.nslot := rfl
@[simp] theorem State.drop_slot (d : SlotIdx) : s.drop.slot d = s.slot d := rfl
@[simp] theorem State.rst_nslot : s.rst.nslot = s.nslot := List.length_replicate
@[simp] theorem State.placeCommand_nslot (w : Word) : (s.placeCommand w).nslot = s.nslot := rfl
@[simp] theorem State.placeCommand_slot (w : Word) (d : SlotIdx) : (s.placeCommand w).slot d = s.slot d := rfl

/-! ### STATUS -/

variable (f : Status)

@[simp] theorem Status.atIssue_done : f.atIssue.done = false := rfl
@[simp] theorem Status.atIssue_err : f.atIssue.err = false := rfl
@[simp] theorem Status.atIssue_ovr : f.atIssue.ovr = f.ovr := rfl
@[simp] theorem Status.atIssue_kind : f.atIssue.kind = 0 := rfl
@[simp] theorem Status.succeeded_done : f.succeeded.done = true := rfl
@[simp] theorem Status.succeeded_err : f.succeeded.err = f.err := rfl
@[simp] theorem Status.succeeded_ovr : f.succeeded.ovr = f.ovr := rfl
@[simp] theorem Status.succeeded_kind : f.succeeded.kind = f.kind := rfl
@[simp] theorem Status.failed_done (k : ErrKind) : (f.failed k).done = true := rfl
@[simp] theorem Status.failed_err (k : ErrKind) : (f.failed k).err = true := rfl
@[simp] theorem Status.failed_ovr (k : ErrKind) : (f.failed k).ovr = f.ovr := rfl
@[simp] theorem Status.failed_kind (k : ErrKind) : (f.failed k).kind = k.code := rfl
@[simp] theorem Status.overrun_done : f.overrun.done = f.done := rfl
@[simp] theorem Status.overrun_err : f.overrun.err = f.err := rfl
@[simp] theorem Status.overrun_ovr : f.overrun.ovr = true := rfl
@[simp] theorem Status.overrun_kind : f.overrun.kind = f.kind := rfl

end Sys2Proof.Machine
end

