-- ==== Sys2Proof/Laws/Ops.lean ====
section
/-! SUPPORT. What each shared operation can answer, said once: `commit`, the four internal steps, and the command in
progress. -/

namespace Sys2Proof.Machine

/-! ### The command in progress -/

theorem State.running_eq_none (s : State) : s.running = none ↔ s.ph = .idle := by
  cases h : s.ph <;> simp [State.running, h]

theorem State.running_ne_idle {s : State} {i : Instr} (h : s.running = some i) : s.ph ≠ .idle := by
  intro hp
  rw [(s.running_eq_none).2 hp] at h
  cases h

theorem State.running_new {s : State} {d : SlotIdx} :
    s.running = some (.new d) ↔ s.ph = .newRun ∧ s.l.dst = d := by
  cases h : s.ph <;> simp [State.running, h]

theorem State.running_decode {s : State} {d : SlotIdx} :
    s.running = some (.decode d) ↔ (s.ph = .decRead ∨ s.ph = .decParse) ∧ s.l.dst = d := by
  cases h : s.ph <;> simp [State.running, h]

theorem State.running_encode {s : State} {n : SlotIdx} :
    s.running = some (.encode n) ↔ s.ph = .encWrite ∧ s.l.src = n := by
  cases h : s.ph <;> simp [State.running, h]

theorem State.running_pixelize {s : State} {d n : SlotIdx} :
    s.running = some (.pixelize d n) ↔ s.ph = .pixRun ∧ s.l.dst = d ∧ s.l.src = n := by
  cases h : s.ph <;> simp [State.running, h]

/-! ### The sink -/

@[simp] theorem Sink.start_answers (k : Sink) : k.start.answers = k.plans.headD [] := rfl
@[simp] theorem Sink.start_rest (k : Sink) : k.start.rest = k.rest := rfl
@[simp] theorem Sink.start_taken (k : Sink) : k.start.taken = k.taken := rfl
@[simp] theorem Sink.start_plans (k : Sink) : k.start.plans = k.plans.tail := rfl

/-- What an answer of the sink can be, and that giving it changes only the answers to come. -/
theorem Sink.next_eq_some {k k' : Sink} {a : Answer} :
    k.next = some (a, k') ↔
      (∃ as, k.answers = a :: as ∧ k' = { k with answers := as }) ∨
      (k.answers = [] ∧ k.rest = some a ∧ k' = k) := by
  unfold Sink.next
  cases h : k.answers with
  | nil => cases hr : k.rest <;> simp [eq_comm]
  | cons b as => simp [eq_comm]

theorem Sink.next_taken {k k' : Sink} {a : Answer} (h : k.next = some (a, k')) : k'.taken = k.taken := by
  obtain ⟨_, _, rfl⟩ | ⟨_, _, rfl⟩ := Sink.next_eq_some.1 h <;> rfl

theorem Sink.next_plans {k k' : Sink} {a : Answer} (h : k.next = some (a, k')) : k'.plans = k.plans := by
  obtain ⟨_, _, rfl⟩ | ⟨_, _, rfl⟩ := Sink.next_eq_some.1 h <;> rfl

/-! ### Exec of the command in progress -/

theorem exec_new_running {s : State} {d : SlotIdx} (h : s.running = some (.new d)) :
    exec (.new d) s = runNew s := by
  simp [exec, execNew, State.running_ne_idle h, h]

theorem exec_decode_reading {s : State} {d : SlotIdx} (h : s.running = some (.decode d))
    (hp : s.ph = .decRead) : exec (.decode d) s = readToken s := by
  simp [exec, execDecode, hp, h]

theorem exec_decode_parsing {s : State} {d : SlotIdx} (h : s.running = some (.decode d))
    (hp : s.ph = .decParse) : exec (.decode d) s = runParse s := by
  simp [exec, execDecode, hp, h]

theorem exec_encode_running {s : State} {n : SlotIdx} (h : s.running = some (.encode n)) :
    exec (.encode n) s = writeByte s := by
  simp [exec, execEncode, State.running_ne_idle h, h]

theorem exec_pixelize_running {s : State} {d n : SlotIdx} (h : s.running = some (.pixelize d n)) :
    exec (.pixelize d n) s = runPixelize s := by
  simp [exec, execPixelize, State.running_ne_idle h, h]

/-! ### Commit -/

/-- `commit` completes exactly when the slot exists and the image fits, and then with the one state R209 gives. -/
theorem State.commit_next {s t : State} {d : SlotIdx} {im : Image} :
    s.commit d im = .next t ↔
      d.toNat < s.nslot ∧ within s.caps.pixcap im.pixels.length = true ∧
      t = { s.succeed with img := s.img.set d.toNat im } := by
  unfold State.commit
  by_cases h : d.toNat < s.nslot <;> by_cases h' : within s.caps.pixcap im.pixels.length = true <;>
    simp [h, h', eq_comm]

/-- `commit` faults only where there is no such slot. -/
theorem State.commit_fault {s : State} {d : SlotIdx} {im : Image} {r : Fault} :
    s.commit d im = .fault r ↔ s.nslot ≤ d.toNat ∧ r = .slotOutOfRange := by
  unfold State.commit
  by_cases h : d.toNat < s.nslot
  · by_cases h' : within s.caps.pixcap im.pixels.length = true <;> simp [h, h']
  · simp [h, eq_comm]; omega

/-- `commit` refuses only where the slot exists and the image exceeds PIXCAP. -/
theorem State.commit_refused {s : State} {d : SlotIdx} {im : Image} {r : Refusal} :
    s.commit d im = .refused r ↔
      d.toNat < s.nslot ∧ within s.caps.pixcap im.pixels.length = false ∧ r = .pixcapExceeded := by
  unfold State.commit
  by_cases h : d.toNat < s.nslot <;> by_cases h' : within s.caps.pixcap im.pixels.length = true <;>
    simp [h, h', eq_comm]

/-! ### The internal steps -/

/-- Everything a step of the command in progress can do when it answers a next state. -/
inductive UnitMove (s : State) : State → Prop
  /-- DEC_READ with no token offered. -/
  | awaitToken : s.ph = .decRead → s.beats = [] → UnitMove s s
  /-- ENC_WRITE with the sink not taking the byte. -/
  | awaitSink (im : Image) : s.ph = .encWrite → s.slot s.l.src = some im → s.sink.next = none → UnitMove s s
  /-- A DATA token. -/
  | data (b : Byte) (beat : Beat) (rest : List Beat) : s.ph = .decRead → s.beats = beat :: rest →
      beat.token = some (.data b) → within s.caps.ibufcap (s.ibuf.length + 1) = true →
      UnitMove s { s with beats := rest, ibuf := s.ibuf ++ [b] }
  /-- An EOS token. -/
  | eos (beat : Beat) (rest : List Beat) : s.ph = .decRead → s.beats = beat :: rest →
      beat.token = some .eos → UnitMove s { s with beats := rest, ph := .decParse }
  /-- An ERR token. -/
  | readError (beat : Beat) (rest : List Beat) : s.ph = .decRead → s.beats = beat :: rest →
      beat.token = some .err → UnitMove s ({ s with beats := rest }.fail .io).emptyBuffer
  /-- A parse that fails. -/
  | parseError (k : ErrKind) : s.ph = .decParse → parseFrame s.ibuf = .error k →
      UnitMove s (s.fail k).emptyBuffer
  /-- A PIXELIZE whose factor does not divide. -/
  | nonExact (im : Image) : s.ph = .pixRun → s.slot s.l.src = some im →
      (s.l.a0 = 0 ∨ mod32 im.width s.l.a0 ≠ 0 ∨ mod32 im.height s.l.a0 ≠ 0) →
      UnitMove s (s.fail .nonExactMultiple)
  /-- The commit of a NEW. -/
  | committedNew : s.ph = .newRun → s.l.dst.toNat < s.nslot →
      within s.caps.pixcap (newImage s.l.a0 s.l.a1).pixels.length = true →
      UnitMove s { s.succeed with img := s.img.set s.l.dst.toNat (newImage s.l.a0 s.l.a1) }
  /-- The commit of a DECODE. -/
  | committedDecode (im : Image) : s.ph = .decParse → parseFrame s.ibuf = .image im →
      s.l.dst.toNat < s.nslot → within s.caps.pixcap im.pixels.length = true →
      UnitMove s { s.emptyBuffer.succeed with img := s.img.set s.l.dst.toNat im }
  /-- The commit of a PIXELIZE. -/
  | committedPixelize (im : Image) (blocks : List (List Pixel)) : s.ph = .pixRun → s.slot s.l.src = some im →
      s.l.a0 ≠ 0 → mod32 im.width s.l.a0 = 0 → mod32 im.height s.l.a0 = 0 →
      readBlocks im s.l.a0.toNat
        (outCoords (div32 im.width s.l.a0).toNat (div32 im.height s.l.a0).toNat) = some blocks →
      blocks.all sumsFit = true → s.l.dst.toNat < s.nslot →
      within s.caps.pixcap (blocks.map (averagePixel (mul64 s.l.a0 s.l.a0))).length = true →
      UnitMove s { ({ s with acc := accsAfter s.acc blocks } : State).succeed with
        img := s.img.set s.l.dst.toNat
          ⟨div32 im.width s.l.a0, div32 im.height s.l.a0, blocks.map (averagePixel (mul64 s.l.a0 s.l.a0))⟩ }
  /-- A byte the sink accepts, with more to come. -/
  | sent (im : Image) (b : Byte) (k : Sink) : s.ph = .encWrite → s.slot s.l.src = some im →
      (encStream im)[s.opos]? = some b → s.sink.next = some (.ok, k) → s.opos + 1 < (encStream im).length →
      UnitMove s { s with sink := { k with taken := k.taken ++ [b] }, opos := s.opos + 1 }
  /-- The last byte, accepted. -/
  | sentLast (im : Image) (b : Byte) (k : Sink) : s.ph = .encWrite → s.slot s.l.src = some im →
      (encStream im)[s.opos]? = some b → s.sink.next = some (.ok, k) → ¬ s.opos + 1 < (encStream im).length →
      UnitMove s ({ s with sink := { k with taken := k.taken ++ [b] }, opos := s.opos + 1 } : State).succeed
  /-- A byte the sink answers FAIL to. -/
  | sinkError (im : Image) (b : Byte) (k : Sink) : s.ph = .encWrite → s.slot s.l.src = some im →
      (encStream im)[s.opos]? = some b → s.sink.next = some (.fail, k) →
      UnitMove s (({ s with sink := k } : State).fail .io)
  /-- ENC_WRITE past the end of the stream, which no run reaches. -/
  | nothingLeft (im : Image) : s.ph = .encWrite → s.slot s.l.src = some im →
      (encStream im)[s.opos]? = none → UnitMove s s.succeed

theorem readToken_next {s t : State} (hp : s.ph = .decRead) (h : readToken s = .next t) : UnitMove s t := by
  unfold readToken at h
  split at h
  · cases h; exact .awaitToken hp ‹_›
  · split at h
    · cases h
    · split at h
      · cases h; exact .data _ _ _ hp ‹_› ‹_› ‹_›
      · cases h
    · cases h; exact .eos _ _ hp ‹_› ‹_›
    · cases h; exact .readError _ _ hp ‹_› ‹_›

theorem runNew_next {s t : State} (hp : s.ph = .newRun) (h : runNew s = .next t) : UnitMove s t := by
  obtain ⟨hd, hw, rfl⟩ := State.commit_next.1 h
  exact .committedNew hp hd hw

theorem runParse_next {s t : State} (hp : s.ph = .decParse) (h : runParse s = .next t) : UnitMove s t := by
  unfold runParse at h
  split at h
  · cases h; exact .parseError _ hp ‹_›
  · obtain ⟨hd, hw, rfl⟩ := State.commit_next.1 h
    exact .committedDecode _ hp ‹_› hd hw

theorem writeByte_next {s t : State} (hp : s.ph = .encWrite) (h : writeByte s = .next t) : UnitMove s t := by
  unfold writeByte at h
  split at h
  · cases h
  · split at h
    · cases h; exact .nothingLeft _ hp ‹_› ‹_›
    · split at h
      · cases h; exact .awaitSink _ hp ‹_› ‹_›
      · cases h; exact .sinkError _ _ _ hp ‹_› ‹_› ‹_›
      · dsimp only at h
        split at h
        · cases h; exact .sent _ _ _ hp ‹_› ‹_› ‹_› ‹_›
        · cases h; exact .sentLast _ _ _ hp ‹_› ‹_› ‹_› ‹_›

theorem runPixelize_next {s t : State} (hp : s.ph = .pixRun) (h : runPixelize s = .next t) : UnitMove s t := by
  unfold runPixelize at h
  split at h
  · cases h
  · split at h
    · cases h; exact .nonExact _ hp ‹_› (.inl ‹_›)
    · split at h
      · cases h; exact .nonExact _ hp ‹_› (.inr ‹_›)
      · rename_i hz hm
        rw [not_or, not_not, not_not] at hm
        dsimp only at h
        split at h
        · cases h
        · split at h
          · obtain ⟨hd, hw, rfl⟩ := State.commit_next.1 h
            exact .committedPixelize _ _ hp ‹_› hz hm.1 hm.2 ‹_› ‹_› hd hw
          · cases h

/-- What `exec` can do with the command in progress. -/
theorem exec_running_next {s t : State} {i : Instr} (hr : s.running = some i) (h : exec i s = .next t) :
    UnitMove s t := by
  cases i with
  | new d => exact runNew_next (State.running_new.1 hr).1 (exec_new_running hr ▸ h)
  | decode d =>
    obtain ⟨hp | hp, -⟩ := State.running_decode.1 hr
    · exact readToken_next hp (exec_decode_reading hr hp ▸ h)
    · exact runParse_next hp (exec_decode_parsing hr hp ▸ h)
  | encode n => exact writeByte_next (State.running_encode.1 hr).1 (exec_encode_running hr ▸ h)
  | pixelize d n => exact runPixelize_next (State.running_pixelize.1 hr).1 (exec_pixelize_running hr ▸ h)

end Sys2Proof.Machine
end

