-- ==== Sys2Proof/Laws/Step.lean ====
section
/-! SUPPORT. Everything a step can do when it answers a next state: a reset, a step of the unit, or a step of the
host. -/

namespace Sys2Proof.Machine

/-- What a word written to CMD can do. -/
inductive CmdMove (s : State) : State → Prop
  /-- A legal command, issued. -/
  | issued (i : Instr) : s.ph = .idle → i.legal s.nslot = true →
      CmdMove s { s.issue i with
        ibuf := if i.opc = 2 then [] else s.ibuf
        opos := if i.opc = 3 then 0 else s.opos
        sink := if i.opc = 3 then s.sink.start else s.sink }
  /-- Not a legal word. -/
  | illegal : s.ph = .idle → CmdMove s (s.fail .illegalCommand)
  /-- The unit is busy. -/
  | dropped : s.ph ≠ .idle → CmdMove s s.drop

theorem exec_idle_next {s t : State} {i : Instr} (hp : s.ph = .idle) (h : exec i s = .next t) : CmdMove s t := by
  by_cases hl : i.legal s.nslot = true
  · have ht : t = { s.issue i with
        ibuf := if i.opc = 2 then [] else s.ibuf
        opos := if i.opc = 3 then 0 else s.opos
        sink := if i.opc = 3 then s.sink.start else s.sink } := by
      cases i <;> simp [exec, execNew, execDecode, execEncode, execPixelize, hp, hl] at h <;>
        rw [← h] <;> rfl
    exact ht ▸ .issued i hp hl
  · have ht : t = s.fail .illegalCommand := by
      cases i <;> simp [exec, execNew, execDecode, execEncode, execPixelize, hp, hl] at h <;> exact h.symm
    exact ht ▸ .illegal hp

theorem State.busy_eq_false {s : State} (hp : s.ph = .idle) : s.busy = false := by simp [State.busy, hp]

theorem State.busy_eq_true {s : State} (hp : s.ph ≠ .idle) : s.busy = true := by simpa [State.busy] using hp

theorem writeCmd_busy {s : State} (w : Word) (hp : s.ph ≠ .idle) : writeCmd w s = .next s.drop :=
  if_pos (State.busy_eq_true hp)

theorem writeCmd_reserved {s : State} {w : Word} (hp : s.ph = .idle) (hd : decode w = none) :
    writeCmd w s = .next (s.fail .illegalCommand) := by
  unfold writeCmd
  rw [State.busy_eq_false hp, hd]
  rfl

theorem writeCmd_decoded {s : State} {w : Word} {i : Instr} (hp : s.ph = .idle) (hd : decode w = some i) :
    writeCmd w s = exec i s := by
  unfold writeCmd
  rw [State.busy_eq_false hp, hd]
  rfl

/-- The step of a host about to write a word to CMD. -/
theorem step_writeCmd {s : State} {w : Word} {rest : List HostOp} {ts : List Turn}
    (ht : s.turns = .host :: ts) (hq : s.hostq = .write 0x00 w :: rest) :
    step s = writeCmd w { s with turns := ts, hostq := rest } := by
  simp [step, ht, turnStep, hostStep, hq, hostAct]

theorem writeCmd_next {s t : State} {w : Word} (h : writeCmd w s = .next t) : CmdMove s t := by
  unfold writeCmd State.busy at h
  by_cases hp : s.ph = .idle
  · simp only [hp, bne_self_eq_false, Bool.false_eq_true, if_false] at h
    split at h
    · cases h; exact .illegal hp
    · exact exec_idle_next hp h
  · rw [if_pos (by simpa using hp)] at h
    cases h; exact .dropped hp

/-- What a step of the host can do. -/
inductive HostMove (s : State) : State → Prop
  /-- The host has nothing to do. -/
  | nothing : s.hostq = [] → HostMove s s
  /-- A CMD write. -/
  | command (w : Word) (rest : List HostOp) (t : State) : s.hostq = .write 0x00 w :: rest →
      CmdMove { s with hostq := rest } t → HostMove s t
  /-- Any other access: of the unit it can change ARG0 and ARG1 only. -/
  | access (op : HostOp) (rest queue : List HostOp) (seen : List Word) (arg0 arg1 : Word) :
      s.hostq = op :: rest → HostMove s { s with hostq := queue, seen := seen, arg0 := arg0, arg1 := arg1 }

theorem hostStep_next {s t : State} (h : hostStep s = .next t) : HostMove s t := by
  unfold hostStep at h
  split at h
  · cases h; exact .nothing ‹_›
  · rename_i op rest hq
    cases op with
    | read off =>
      simp only [hostAct] at h
      split at h
      · cases h; exact .access _ _ rest _ s.arg0 s.arg1 hq
      · cases h
    | write off v =>
      simp only [hostAct] at h
      split at h
      · split at h
        · subst_vars; exact .command _ _ _ hq (writeCmd_next h)
        · unfold State.writeReg at h
          split at h
          · cases h; exact .access _ _ rest s.seen v s.arg1 hq
          · split at h
            · cases h; exact .access _ _ rest s.seen s.arg0 v hq
            · cases h; exact .access _ _ rest s.seen s.arg0 s.arg1 hq
      · cases h
    | narrow off => cases h
    | waitDone =>
      simp only [hostAct] at h
      split at h <;> cases h
      · exact .access _ _ rest _ s.arg0 s.arg1 hq
      · exact .access _ _ _ _ s.arg0 s.arg1 hq

/-- What a step of the unit can do. -/
theorem unitStep_next {s t : State} (h : unitStep s = .next t) : (s.ph = .idle ∧ t = s) ∨ UnitMove s t := by
  unfold unitStep at h
  split at h
  · cases h; exact .inl ⟨(s.running_eq_none).1 ‹_›, rfl⟩
  · exact .inr (exec_running_next ‹_› h)

/-- The state the agent whose turn it is starts from: its turn taken off the list. -/
def State.turnTaken (s : State) : State := { s with turns := s.turns.tail }

@[simp] theorem State.turnTaken_ph (s : State) : s.turnTaken.ph = s.ph := rfl
@[simp] theorem State.turnTaken_hostq (s : State) : s.turnTaken.hostq = s.hostq := rfl

/-- Everything a step can do. -/
theorem step_next {s t : State} (h : step s = .next t) :
    ((∃ ts, s.turns = .reset :: ts) ∧ t = s.turnTaken.rst) ∨ (s.ph = .idle ∧ t = s.turnTaken) ∨
    UnitMove s.turnTaken t ∨ HostMove s.turnTaken t := by
  have host : hostStep s.turnTaken = .next t → HostMove s.turnTaken t := hostStep_next
  have unit : unitStep s.turnTaken = .next t → (s.ph = .idle ∧ t = s.turnTaken) ∨ UnitMove s.turnTaken t :=
    unitStep_next
  unfold step at h
  split at h
  · rename_i ht
    have hs : s.turnTaken = s := by cases s; cases ht; rfl
    unfold defaultStep at h
    rw [hs] at host unit ⊢
    split at h
    · exact (unit h).elim (fun x => .inr (.inl x)) (fun x => .inr (.inr (.inl x)))
    · exact .inr (.inr (.inr (host h)))
  · rename_i a ts ht
    have hs : ({ s with turns := ts } : State) = s.turnTaken := by simp [State.turnTaken, ht]
    rw [hs] at h
    cases a with
    | host => exact .inr (.inr (.inr (host h)))
    | unit => exact (unit h).elim (fun x => .inr (.inl x)) (fun x => .inr (.inr (.inl x)))
    | reset => exact .inl ⟨⟨ts, ht⟩, by cases h; rfl⟩

end Sys2Proof.Machine
end

