-- ==== Sys2Proof/Laws/Run.lean ====
section
/-! SUPPORT. Runs: `runSteps` is the host's `Core.run` of this machine, and its unfolding laws. -/

namespace Sys2Proof.Machine

theorem runSteps_eq_core_run (n : Nat) (s : State) : runSteps n s = Host.Core.run Sys2Proof.core n s := by
  induction n generalizing s with
  | zero => rfl
  | succ n ih =>
    simp only [runSteps, Host.Core.run, Sys2Proof.core]
    cases h : step s with
    | next t => exact ih t
    | fault r => rfl
    | refused r => rfl

@[simp] theorem runSteps_zero (s : State) : runSteps 0 s = .next s := rfl

/-- One step, and the rest of the run. -/
theorem runSteps_of_next {s t : State} {n : Nat} (h : step s = .next t) : runSteps (n + 1) s = runSteps n t := by
  simp only [runSteps, h]

theorem runSteps_next_cons {s t : State} {n : Nat} (h : runSteps (n + 1) s = .next t) :
    ∃ m, step s = .next m ∧ runSteps n m = .next t := by
  unfold runSteps at h
  cases hs : step s with
  | next m => exact ⟨m, rfl, by rwa [hs] at h⟩
  | fault r => rw [hs] at h; cases h
  | refused r => rw [hs] at h; cases h

end Sys2Proof.Machine
end

