-- ==== Sys2Proof/Laws/Wire.lean ====
section
/-! SUPPORT. The encode stream, its length and its chunks; a parse always keeps the pixel count. -/

namespace Sys2Proof.Machine

@[simp] theorem Pixel.toChunk_length (p : Pixel) : p.toChunk.length = 8 := rfl

@[simp] theorem Image.header_length (im : Image) : im.header.length = 16 := rfl

theorem flatMap_toChunk_length (ps : List Pixel) : (ps.flatMap Pixel.toChunk).length = 8 * ps.length := by
  induction ps with
  | nil => rfl
  | cons p ps ih => rw [List.flatMap_cons, List.length_append, ih, Pixel.toChunk_length, List.length_cons]; ring

/-- The length of the encode stream (R144). -/
@[simp] theorem encStream_length (im : Image) : (encStream im).length = 16 + 8 * im.pixels.length := by
  rw [encStream, List.length_append, Image.header_length, flatMap_toChunk_length]

/-- Byte `k` of the chunks of a list of pixels is byte `k mod 8` of the chunk of pixel `k div 8`. -/
theorem flatMap_toChunk_getElem? {ps : List Pixel} {k : Nat} {p : Pixel} (h : ps[k / 8]? = some p) :
    (ps.flatMap Pixel.toChunk)[k]? = p.toChunk[k % 8]? := by
  induction ps generalizing k with
  | nil => simp at h
  | cons q ps ih =>
    rw [List.flatMap_cons]
    by_cases hk : k < 8
    · rw [List.getElem?_append_left (by simpa using hk), Nat.mod_eq_of_lt hk]
      rw [Nat.div_eq_of_lt hk] at h
      cases h; rfl
    · rw [List.getElem?_append_right (by simpa using Nat.le_of_not_lt hk), Pixel.toChunk_length,
        ih (by rw [← h, show k / 8 = (k - 8) / 8 + 1 by omega, List.getElem?_cons_succ])]
      congr 1; omega

/-- Byte `16 + k` of an encode stream is byte `k mod 8` of the chunk of pixel `k div 8` (R144). -/
theorem encStream_getElem?_pixel {im : Image} {k : Nat} {p : Pixel} (h : im.pixels[k / 8]? = some p) :
    (encStream im)[16 + k]? = p.toChunk[k % 8]? := by
  rw [encStream, List.getElem?_append_right (by simp), Image.header_length, Nat.add_sub_cancel_left,
    flatMap_toChunk_getElem? h]

end Sys2Proof.Machine
end

