-- ==== Sys2Proof/Tests/Slice0.lean ====
section
/-! SUPPORT. Tests, each on one word or one step, with expected values from spec/95_test_vectors.md (the identifier of the
vector stands in the docstring) or written out from the encoding tables; and, for every statement of
Certificates/Slice0/Obligations.lean that has hypotheses, a witness that meets all of them together. -/

namespace Sys2Proof.Tests

open Sys2Proof Sys2Proof.Machine

/-! ### Small states -/

/-- The next state of an outcome. -/
def nextOf : Out → Option State
  | .next t => some t
  | _ => none

/-- A field or view of the next state of an outcome. -/
def after {α : Type} (o : Out) (view : State → α) : Option α := (nextOf o).map view

/-- The refusal of an outcome. -/
def refusalOf : Out → Option Refusal
  | .refused r => some r
  | _ => none

/-- The fault of an outcome. -/
def faultOf : Out → Option Fault
  | .fault r => some r
  | _ => none

/-- A unit in phase `ph` with latch `l` and slots `img`, all else as after reset. -/
def busyWith (ph : Phase) (l : Latch) (img : List Image) : State :=
  { State.reset with ph := ph, l := l, img := img }

/-- An idle unit with slots `img` whose host is about to write `w` to CMD. -/
def writing (w : Word) (img : List Image) : State :=
  { State.reset with img := img, hostq := [.write 0x00 w] }

/-- `H(w, h)` of 95_test_vectors.md. -/
def headerOf (w h : List Byte) : List Byte :=
  [0x66, 0x61, 0x72, 0x62, 0x66, 0x65, 0x6C, 0x64] ++ w ++ h

/-- The 24 bytes of VD8. -/
def vd8 : List Byte := headerOf [0, 0, 0, 1] [0, 0, 0, 1] ++ [1, 2, 3, 4, 5, 6, 7, 8]

/-- The image of VD8 and VE3. -/
def imageVd8 : Image := ⟨1, 1, [⟨0x0102, 0x0304, 0x0506, 0x0708⟩]⟩

/-- The source image of V1. -/
def imageV1 : Image :=
  let row : List Pixel := [⟨0, 0, 0, 65535⟩, ⟨1000, 0, 0, 65535⟩, ⟨2000, 0, 0, 65535⟩, ⟨3000, 0, 0, 65535⟩]
  ⟨4, 4, row ++ row ++ row ++ row⟩

/-- The source image of VX1. -/
def imageVx1 : Image := ⟨2, 2, [⟨1, 0, 0, 65535⟩, ⟨2, 0, 0, 65535⟩, ⟨3, 0, 0, 65535⟩, ⟨5, 0, 0, 65535⟩]⟩

/-- A NEW in progress, in slot 1. -/
def runningNew (w h : Word) : State := busyWith .newRun ⟨1, 1, 0, w, h⟩ [Image.empty, imageVx1]

/-- A DECODE into slot 1, reading. -/
def reading (ibuf : List Byte) (beats : List Beat) : State :=
  { busyWith .decRead ⟨2, 1, 0, 0, 0⟩ [Image.empty, imageVx1] with ibuf := ibuf, beats := beats }

/-- A DECODE into slot 1, about to parse. -/
def parsing (ibuf : List Byte) : State :=
  { busyWith .decParse ⟨2, 1, 0, 0, 0⟩ [Image.empty, imageVx1] with ibuf := ibuf }

/-- An ENCODE of slot 1 with `opos` bytes accepted and a sink that will give `answers`. -/
def sending (im : Image) (opos : Nat) (answers : List Answer) : State :=
  { busyWith .encWrite ⟨3, 0, 1, 0, 0⟩ [Image.empty, im] with opos := opos, sink := ⟨answers, none, [], []⟩ }

/-- A `PIXELIZE 1, 0` in progress. -/
def shrinking (im : Image) (f : Word) : State := busyWith .pixRun ⟨4, 1, 0, f, 0⟩ [im, Image.empty]

/-! ### WellFormed: each condition of R88 (d), (e) turns its ill-formed term away, in a unit with two slots -/

theorem test_new_needs_its_slot : (Instr.new 2).legal 2 = false ∧ (Instr.new 1).legal 2 = true := by decide
theorem test_decode_needs_its_slot : (Instr.decode 15).legal 2 = false ∧ (Instr.decode 0).legal 2 = true := by decide
theorem test_encode_needs_its_slot : (Instr.encode 2).legal 2 = false ∧ (Instr.encode 1).legal 2 = true := by decide
theorem test_pixelize_needs_both_slots :
    (Instr.pixelize 2 0).legal 2 = false ∧ (Instr.pixelize 0 2).legal 2 = false ∧
    (Instr.pixelize 1 0).legal 2 = true := by decide
theorem test_pixelize_needs_two_slots : (Instr.pixelize 1 1).legal 2 = false := by decide

/-! ### Decode: words written out from the bit patterns of R83, `0…0 ssss dddd oooooooo` -/

theorem test_decode_new : decode (0b00000000000000000000110100000001 : Word) = some (.new 13) := by decide
theorem test_decode_decode : decode (0b00000000000000000000001000000010 : Word) = some (.decode 2) := by decide
theorem test_decode_encode : decode (0b00000000000000001011000000000011 : Word) = some (.encode 11) := by decide
theorem test_decode_pixelize :
    decode (0b00000000000000000111100000000100 : Word) = some (.pixelize 8 7) := by decide
/-- R83, R89: a used field of the wrong command, a reserved bit, a reserved operation code. -/
theorem test_decode_illegal :
    decode (0b00000000000000000001000000000001 : Word) = none ∧
    decode (0b00000000000000000001000000000010 : Word) = none ∧
    decode (0b00000000000000000000000100000011 : Word) = none ∧
    decode (0b00000000000000010000000000000100 : Word) = none ∧
    decode (0b00000000000000000000000000000000 : Word) = none ∧
    decode (0b00000000000000000000000000000101 : Word) = none := by decide
/-- R92: the words of its four examples. -/
theorem test_encode_words :
    encode (.new 1) = 0x00000101 ∧ encode (.decode 0) = 0x00000002 ∧ encode (.encode 1) = 0x00001003 ∧
    encode (.pixelize 1 0) = 0x00000104 ∧ encode (.pixelize 0 1) = 0x00001004 := by decide
theorem test_table_word : decodeTableWord 32 0x00000104 = some (.pixelize 1 0) := by decide

/-! ### The host port -/

/-- 95_test_vectors.md, section 2.2: the STATUS value of every outcome. -/
theorem test_status_values :
    State.reset.statusWord = 0x00 ∧
    (runningNew 1 1).statusWord = 0x01 ∧ (runningNew 1 1).drop.statusWord = 0x09 ∧
    State.reset.succeed.statusWord = 0x02 ∧ (State.reset.fail .io).statusWord = 0x16 ∧
    (State.reset.fail .headerToShort).statusWord = 0x26 ∧
    (State.reset.fail .farbfeldPatternNotFound).statusWord = 0x36 ∧
    (State.reset.fail .mismatchedLength).statusWord = 0x46 ∧
    (State.reset.fail .nonExactMultiple).statusWord = 0x56 ∧
    (State.reset.fail .illegalCommand).statusWord = 0x86 ∧ State.reset.drop.succeed.statusWord = 0x0A := by decide
/-- P4, statement 1: a reserved operation code is refused, and STATUS reads 0x86. -/
theorem test_step_refuses_word :
    after (step (writing 0x00000005 [Image.empty, Image.empty])) (fun t => (t.statusWord, t.ph)) =
      some (0x86, .idle) := by decide
/-- P4, statement 4: a word written while busy is dropped, and STATUS reads 0x09. -/
theorem test_step_drops_word :
    after (step { runningNew 3 5 with turns := [.host], hostq := [.write 0x00 0x00000101] })
      (fun t => (t.statusWord, t.ph, t.l.a0)) = some (0x09, .newRun, 3) := by decide
/-- P5: the operands are latched at issue, the old values of ARG0 and ARG1. -/
theorem test_step_latches :
    after (step { writing 0x00000001 [Image.empty, Image.empty] with arg0 := 3, arg1 := 5 }) (·.l) =
      some ⟨1, 0, 0, 3, 5⟩ := by decide
/-- R30, R45: IMG1_HEIGHT, and the offset after the last slot's. -/
theorem test_read_dimensions :
    (shrinking imageVx1 2).readReg 0x20 = 2 ∧ (runningNew 1 1).readReg 0x2C = 2 ∧
    (runningNew 1 1).readReg 0x30 = 0 := by decide
/-- R58, U9. -/
theorem test_narrow_access_refused :
    refusalOf (step { State.reset with hostq := [.narrow 4] }) = some .narrowAccess ∧
    refusalOf (step { State.reset with hostq := [.read 6] }) = some .unalignedAccess := by decide
/-- R233: the first step after reset with a word placed issues its command. -/
theorem test_placed_word_issues :
    after (step (State.reset.withFetchWord 32 0x00000001)) (·.ph) = some .newRun ∧
    after (step (State.reset.withFetchWord 32 0x00000002)) (·.ph) = some .decRead ∧
    after (step (State.reset.withFetchWord 32 0x00000003)) (·.ph) = some .encWrite ∧
    after (step (State.reset.withFetchWord 32 0x00000104)) (·.ph) = some .pixRun := by decide

/-! ### NEW -/

/-- V3, VN1. -/
theorem test_new_two_by_one :
    after (exec (.new 1) (runningNew 2 1)) (fun t => (t.img, t.statusWord)) =
      some ([Image.empty, ⟨2, 1, [⟨0, 0, 0, 65535⟩, ⟨0, 0, 0, 65535⟩]⟩], 0x02) := by decide
/-- VN3: a zero width keeps the height. -/
theorem test_new_zero_width :
    after (exec (.new 1) (runningNew 0 5)) (·.img) = some [Image.empty, ⟨0, 5, []⟩] := by decide

/-! ### DECODE -/

/-- VD1, VD3: too short, whatever the bytes. -/
theorem test_decode_short :
    after (exec (.decode 1) (parsing [])) (·.statusWord) = some 0x26 ∧
    after (exec (.decode 1) (parsing (List.replicate 15 0x58))) (·.statusWord) = some 0x26 := by decide
/-- VD13, VD14: a capital letter, and a wrong last letter. -/
theorem test_decode_pattern :
    after (exec (.decode 1) (parsing
      [0x46, 0x61, 0x72, 0x62, 0x66, 0x65, 0x6C, 0x64, 0, 0, 0, 0, 0, 0, 0, 0])) (·.statusWord) = some 0x36 ∧
    after (exec (.decode 1) (parsing
      [0x66, 0x61, 0x72, 0x62, 0x66, 0x65, 0x6C, 0x74, 0, 0, 0, 1, 0, 0, 0, 1])) (·.statusWord) = some 0x36 := by
  decide
/-- VD6, VD7, VD11, VD12: too few chunks, by the exact product. -/
theorem test_parse_mismatched :
    parseFrame (headerOf [0, 0, 0, 1] [0, 0, 0, 1]) = .error .mismatchedLength ∧
    parseFrame (headerOf [0, 0, 0, 1] [0, 0, 0, 1] ++ [1, 2, 3, 4, 5, 6, 7]) = .error .mismatchedLength ∧
    parseFrame (headerOf [255, 255, 255, 255] [255, 255, 255, 255] ++ [0, 0, 0, 0, 0, 0, 0, 0]) =
      .error .mismatchedLength ∧
    parseFrame (headerOf [0, 1, 0, 0] [0, 1, 0, 0]) = .error .mismatchedLength := by
  refine ⟨rfl, rfl, rfl, rfl⟩
/-- VD8: one pixel, committed, the buffer emptied. -/
theorem test_decode_one_pixel :
    after (exec (.decode 1) (parsing vd8)) (fun t => (t.img, t.ibuf, t.statusWord)) =
      some ([Image.empty, imageVd8], [], 0x02) := by decide
/-- VD15, VD16: a read error, after a whole stream and after nothing. -/
theorem test_decode_io :
    after (exec (.decode 1) (reading vd8 [Beat.err])) (fun t => (t.statusWord, t.ibuf)) = some (0x16, []) ∧
    after (exec (.decode 1) (reading [] [Beat.err])) (·.statusWord) = some 0x16 := by decide
/-- U6. -/
theorem test_reserved_token_refused :
    refusalOf (exec (.decode 1) (reading [] [⟨3, 0⟩])) = some .reservedToken := by decide

/-! ### ENCODE -/

/-- VE3 and VX13's way of writing: the stream of a one-pixel image. -/
theorem test_stream_one_pixel : encStream imageVd8 = vd8 := by decide
/-- VE4. -/
theorem test_stream_width_bytes :
    encStream ⟨0x01020304, 0, []⟩ =
      [0x66, 0x61, 0x72, 0x62, 0x66, 0x65, 0x6C, 0x64, 1, 2, 3, 4, 0, 0, 0, 0] := by decide
/-- VE3, its last byte: the command completes with 24 bytes accepted. -/
theorem test_encode_last_byte :
    after (exec (.encode 1) (sending imageVd8 23 [.ok])) (fun t => (t.opos, t.sink.taken, t.statusWord)) =
      some (24, [8], 0x02) := by decide
/-- VE6: FAIL at byte 10. -/
theorem test_encode_fail :
    after (exec (.encode 1) (sending imageVd8 10 [.fail])) (fun t => (t.opos, t.sink.taken, t.statusWord)) =
      some (10, [], 0x16) := by decide

/-- R91: `.sink fail_at 0` leaves an ENCODE in progress alone, whose next byte the sink takes. -/
theorem test_fail_at_spares_running :
    after (exec (.encode 1) ((sending imageVd8 10 [.ok]).sinkFailAt 0)) (fun t => (t.opos, t.sink.taken)) =
      some (11, [0]) := by decide
/-- R91: `.sink fail_at 30` is about the next ENCODE; the one after it does not inherit what that one left over. -/
theorem test_fail_at_is_for_the_next :
    after (exec (.encode 1) ((writing 0 [Image.empty, imageVd8]).sinkFailAt 30)) (·.sink.answers) =
      some (List.replicate 30 .ok ++ [.fail]) ∧
    after (exec (.encode 1) { writing 0 [Image.empty, imageVd8] with sink := ⟨[.ok, .fail], some .ok, [], []⟩ })
      (·.sink.answers) = some [] := by decide

/-! ### PIXELIZE -/

/-- V1, VX15: the scenario of the source, and the source slot untouched. -/
theorem test_pixelize_scenario :
    after (exec (.pixelize 1 0) (shrinking imageV1 2)) (·.img) =
      some [imageV1, ⟨2, 2, [⟨500, 0, 0, 65535⟩, ⟨2500, 0, 0, 65535⟩, ⟨500, 0, 0, 65535⟩,
        ⟨2500, 0, 0, 65535⟩]⟩] := by decide
/-- VX13: channels do not mix, blocks do not mix, the average is floored. -/
theorem test_pixelize_two_blocks :
    after (exec (.pixelize 1 0) (shrinking ⟨4, 2, [⟨10, 20, 30, 40⟩, ⟨11, 21, 31, 41⟩, ⟨100, 200, 300, 400⟩,
      ⟨101, 201, 301, 401⟩, ⟨12, 22, 32, 42⟩, ⟨13, 23, 33, 43⟩, ⟨102, 202, 302, 402⟩,
      ⟨104, 204, 304, 404⟩]⟩ 2)) (fun t => t.slot 1) =
      some (some ⟨2, 1, [⟨11, 21, 31, 41⟩, ⟨101, 201, 301, 401⟩]⟩) := by decide
/-- VX4, VX5, VX7. -/
theorem test_pixelize_nonexact :
    after (exec (.pixelize 1 0) (shrinking imageVx1 0)) (·.statusWord) = some 0x56 ∧
    after (exec (.pixelize 1 0) (shrinking imageVx1 3)) (·.statusWord) = some 0x56 ∧
    after (exec (.pixelize 1 0) (shrinking ⟨0, 3, []⟩ 2)) (·.statusWord) = some 0x56 := by decide
/-- VX10: the empty image, at the largest factor. -/
theorem test_pixelize_empty :
    after (exec (.pixelize 1 0) (shrinking Image.empty 0xFFFFFFFF)) (fun t => (t.img, t.statusWord)) =
      some ([Image.empty, Image.empty], 0x02) := by decide
/-- Section 2.7: rows of MUL64, DIV32 and DIV64. -/
theorem test_arithmetic_rows :
    mul64 0 0xFFFFFFFF = 0 ∧ div32 4 3 = 1 ∧ mod32 4 3 = 1 ∧ div32 4 8 = 0 ∧ mod32 4 8 = 4 ∧
    div64 11 4 = 2 ∧ div64 262139 4 = 65534 ∧ div64 262140 4 = 65535 ∧ div64 589779 9 = 65531 := by decide
/-- Log entry 12: the two guards of unreachable accesses. -/
theorem test_guards :
    faultOf (exec (.new 9) (busyWith .newRun ⟨1, 9, 0, 0, 0⟩ [Image.empty, Image.empty])) =
      some .slotOutOfRange ∧
    faultOf (exec (.pixelize 1 0) (shrinking ⟨2, 2, []⟩ 2)) = some .pixelOutOfRange := by decide

/-! ### Witnesses

For each statement with hypotheses, a state and operands that meet all of them, clause by clause, and at a boundary of the
ranges named. The name is the statement's. -/

/-- A host, in a unit in the given state, about to write `w` to CMD, on its own turn. -/
def hostTurn (s : State) (w : Word) : State := { s with turns := [.host], hostq := [.write 0x00 w] }

theorem witness_ChunkBijection : ([1, 2, 3, 4, 5, 6, 7, 8] : List Byte).length = 8 := by decide

theorem witness_BusyCmdWriteDropped :
    (hostTurn (runningNew 1 1) 0x101).turns = .host :: [] ∧
    (hostTurn (runningNew 1 1) 0x101).hostq = .write 0x00 0x101 :: [] ∧
    (hostTurn (runningNew 1 1) 0x101).ph ≠ .idle := by decide

/-- A slot index equal to NSLOT. -/
theorem witness_IllegalWordReported :
    (hostTurn State.reset 0x201).turns = .host :: [] ∧
    (hostTurn State.reset 0x201).hostq = .write 0x00 0x201 :: [] ∧
    (hostTurn State.reset 0x201).ph = .idle ∧ decodeLegal (hostTurn State.reset 0x201).nslot 0x201 = none := by
  decide

/-- The largest slot index, for each of the four commands. -/
theorem witness_LegalWordIssued :
    (hostTurn State.reset 0x101).turns = .host :: [] ∧
    (hostTurn State.reset 0x101).hostq = .write 0x00 0x101 :: [] ∧ (hostTurn State.reset 0x101).ph = .idle ∧
    (decodeLegal (hostTurn State.reset 0x101).nslot 0x101).isSome = true ∧
    (decodeLegal (hostTurn State.reset 0x102).nslot 0x102).isSome = true ∧
    (decodeLegal (hostTurn State.reset 0x1003).nslot 0x1003).isSome = true ∧
    (decodeLegal (hostTurn State.reset 0x104).nslot 0x104).isSome = true := by decide

theorem witness_StepRunsWrittenCommand :
    (hostTurn State.reset 0x101).hostq = .write 0x00 0x101 :: [] ∧ (hostTurn State.reset 0x101).ph = .idle ∧
    decode 0x101 = some (.new 1) ∧ (hostTurn State.reset 0x101).turns = .host :: [] ∧
    (writing 0x101 [Image.empty, Image.empty]).hostq = .write 0x00 0x101 :: [] ∧
    (writing 0x101 [Image.empty, Image.empty]).ph = .idle ∧
    (writing 0x101 [Image.empty, Image.empty]).turns = [] := by decide

theorem witness_StepRunsCommandInProgress :
    (runningNew 1 1).running = some (.new 1) ∧
    ({ runningNew 1 1 with turns := [.unit] } : State).turns = .unit :: [] ∧
    ({ runningNew 1 1 with turns := [.unit] } : State).running = some (.new 1) ∧
    (runningNew 1 1).turns = [] ∧ (runningNew 1 1).unitEnabled = true ∧
    (reading [] [Beat.eos]).unitEnabled = true ∧ (sending imageVd8 0 [.ok]).unitEnabled = true := by decide

theorem witness_PlacedWordRuns : decode 0x1004 = some (.pixelize 0 1) := by decide

theorem witness_ExecIssuesLegalCommand :
    State.reset.ph = .idle ∧ (Instr.new 1).legal State.reset.nslot = true ∧
    (Instr.decode 1).legal State.reset.nslot = true ∧ (Instr.encode 1).legal State.reset.nslot = true ∧
    (Instr.pixelize 1 0).legal State.reset.nslot = true := by decide

theorem witness_ExecTurnsCommandAway :
    State.reset.ph = .idle ∧ (Instr.pixelize 1 1).legal State.reset.nslot = false ∧
    (runningNew 1 1).ph ≠ .idle ∧ (runningNew 1 1).running ≠ some (.new 0) := by decide

theorem witness_RunningCommandIgnoresArgs :
    (runningNew 1 1).running = some (.new 1) ∧ ∃ t, exec (.new 1) (runningNew 1 1) = .next t := ⟨rfl, _, rfl⟩

theorem witness_ExecFrame : ∃ t, exec (.new 1) (runningNew 1 1) = .next t := ⟨_, rfl⟩

/-- A PIXCAP that the image just meets. -/
theorem witness_NewCommitsOpaqueBlack :
    ({ runningNew 2 3 with caps := ⟨some 6, none⟩ } : State).running = some (.new 1) ∧
    (1 : SlotIdx).toNat < ({ runningNew 2 3 with caps := ⟨some 6, none⟩ } : State).nslot ∧
    within ({ runningNew 2 3 with caps := ⟨some 6, none⟩ } : State).caps.pixcap
      ((runningNew 2 3).l.a0.toNat * (runningNew 2 3).l.a1.toNat) = true := by decide

/-- Capacities exceeded by one. -/
theorem witness_CapacityExceededRefused :
    (({ runningNew 2 3 with caps := ⟨some 5, none⟩ } : State).running = some (.new 1) ∧
      (1 : SlotIdx).toNat < (runningNew 2 3).nslot ∧
      ({ runningNew 2 3 with caps := ⟨some 5, none⟩ } : State).caps.pixcap = some 5 ∧
      5 < (runningNew 2 3).l.a0.toNat * (runningNew 2 3).l.a1.toNat) ∧
    (({ reading [1, 2] [⟨0, 3⟩] with caps := ⟨none, some 2⟩ } : State).running = some (.decode 1) ∧
      ({ reading [1, 2] [⟨0, 3⟩] with caps := ⟨none, some 2⟩ } : State).ph = .decRead ∧
      ({ reading [1, 2] [⟨0, 3⟩] with caps := ⟨none, some 2⟩ } : State).beats = ⟨0, 3⟩ :: [] ∧
      ({ reading [1, 2] [⟨0, 3⟩] with caps := ⟨none, some 2⟩ } : State).caps.ibufcap = some 2 ∧
      2 ≤ (reading [1, 2] [⟨0, 3⟩]).ibuf.length) ∧
    (({ parsing vd8 with caps := ⟨some 0, none⟩ } : State).running = some (.decode 1) ∧
      ({ parsing vd8 with caps := ⟨some 0, none⟩ } : State).ph = .decParse ∧
      (1 : SlotIdx).toNat < (parsing vd8).nslot ∧
      parseFrame ({ parsing vd8 with caps := ⟨some 0, none⟩ } : State).ibuf = .image imageVd8 ∧
      ({ parsing vd8 with caps := ⟨some 0, none⟩ } : State).caps.pixcap = some 0 ∧ 0 < imageVd8.pixels.length) ∧
    (({ shrinking imageV1 2 with caps := ⟨some 3, none⟩ } : State).running = some (.pixelize 1 0) ∧
      (1 : SlotIdx).toNat < (shrinking imageV1 2).nslot ∧
      ({ shrinking imageV1 2 with caps := ⟨some 3, none⟩ } : State).slot 0 = some imageV1 ∧ imageV1.wf ∧
      2 = (shrinking imageV1 2).l.a0.toNat ∧ 2 ≠ 0 ∧ 2 * 2 = imageV1.width.toNat ∧ 2 * 2 = imageV1.height.toNat ∧
      (∀ x < 2, ∀ y < 2,
        imageV1.blockTotal 2 (·.r) x y < 2 ^ 64 ∧ imageV1.blockTotal 2 (·.g) x y < 2 ^ 64 ∧
        imageV1.blockTotal 2 (·.b) x y < 2 ^ 64 ∧ imageV1.blockTotal 2 (·.a) x y < 2 ^ 64) ∧
      ({ shrinking imageV1 2 with caps := ⟨some 3, none⟩ } : State).caps.pixcap = some 3 ∧ 3 < 2 * 2) := by
  refine ⟨by decide, by decide, ⟨rfl, rfl, by decide, rfl, rfl, by decide⟩, by decide⟩

/-- A byte that just fits, and an EOS whose data byte is not 0. -/
theorem witness_DecodeReadsToken :
    (({ reading [1] [⟨0, 3⟩] with caps := ⟨none, some 2⟩ } : State).running = some (.decode 1) ∧
      ({ reading [1] [⟨0, 3⟩] with caps := ⟨none, some 2⟩ } : State).ph = .decRead ∧
      ({ reading [1] [⟨0, 3⟩] with caps := ⟨none, some 2⟩ } : State).beats = ⟨0, 3⟩ :: [] ∧
      within ({ reading [1] [⟨0, 3⟩] with caps := ⟨none, some 2⟩ } : State).caps.ibufcap
        ((reading [1] [⟨0, 3⟩]).ibuf.length + 1) = true) ∧
    ((reading [1] [⟨1, 7⟩]).running = some (.decode 1) ∧ (reading [1] [⟨1, 7⟩]).ph = .decRead ∧
      (reading [1] [⟨1, 7⟩]).beats = ⟨1, 7⟩ :: []) := by decide

theorem witness_DecodeReadErrorIsIo :
    (reading vd8 [⟨2, 9⟩]).running = some (.decode 1) ∧ (reading vd8 [⟨2, 9⟩]).ph = .decRead ∧
    (reading vd8 [⟨2, 9⟩]).beats = ⟨2, 9⟩ :: [] := by decide

/-- 15 bytes. -/
theorem witness_DecodeHeaderToShort :
    (parsing (vd8.take 15)).running = some (.decode 1) ∧ (parsing (vd8.take 15)).ph = .decParse ∧
    (parsing (vd8.take 15)).ibuf.length < 16 := by decide

/-- 16 bytes. -/
theorem witness_DecodePatternNotFound :
    (parsing (List.replicate 16 0)).running = some (.decode 1) ∧ (parsing (List.replicate 16 0)).ph = .decParse ∧
    16 ≤ (parsing (List.replicate 16 0)).ibuf.length ∧
    (parsing (List.replicate 16 0)).ibuf.take 8 ≠ [0x66, 0x61, 0x72, 0x62, 0x66, 0x65, 0x6C, 0x64] := by decide

/-- 23 bytes for one pixel. -/
theorem witness_DecodeMismatchedLength :
    (parsing (vd8.take 23)).running = some (.decode 1) ∧ (parsing (vd8.take 23)).ph = .decParse ∧
    16 ≤ (parsing (vd8.take 23)).ibuf.length ∧
    (parsing (vd8.take 23)).ibuf.take 8 = [0x66, 0x61, 0x72, 0x62, 0x66, 0x65, 0x6C, 0x64] ∧
    ((parsing (vd8.take 23)).ibuf.length - 16) / 8 <
      (field32 (parsing (vd8.take 23)).ibuf 8).toNat * (field32 (parsing (vd8.take 23)).ibuf 12).toNat := by decide

/-- 24 bytes for one pixel, in a unit that can hold one. -/
theorem witness_DecodeCommitsImage :
    (parsing vd8).running = some (.decode 1) ∧ (parsing vd8).ph = .decParse ∧
    (1 : SlotIdx).toNat < (parsing vd8).nslot ∧ 16 ≤ (parsing vd8).ibuf.length ∧
    (parsing vd8).ibuf.take 8 = [0x66, 0x61, 0x72, 0x62, 0x66, 0x65, 0x6C, 0x64] ∧
    16 + 8 * ((field32 (parsing vd8).ibuf 8).toNat * (field32 (parsing vd8).ibuf 12).toNat) ≤
      (parsing vd8).ibuf.length ∧
    within (parsing vd8).caps.pixcap
      ((field32 (parsing vd8).ibuf 8).toNat * (field32 (parsing vd8).ibuf 12).toNat) = true := by decide

theorem witness_TrailingBytesIgnored :
    (parsing vd8).running = some (.decode 1) ∧ (parsing vd8).ph = .decParse ∧
    16 + 8 * ((field32 (parsing vd8).ibuf 8).toNat * (field32 (parsing vd8).ibuf 12).toNat) ≤
      (parsing vd8).ibuf.length := by decide

theorem witness_ParseUndoesSerialize : imageV1.wf := by decide

/-- The longest proper prefix. -/
theorem witness_TruncatedStreamRejected : imageVd8.wf ∧ 23 < 16 + 8 * imageVd8.pixels.length := by decide

/-- VD8 offered to a DECODE, with the first byte of a later stream behind it. -/
def wholeDecode : State :=
  { writing 0x00000102 [Image.empty, imageVx1] with beats := vd8.map (fun b => ⟨0, b⟩) ++ [⟨1, 9⟩, ⟨0, 5⟩] }

theorem witness_WholeDecodeRun :
    wholeDecode.ph = .idle ∧ wholeDecode.turns = [] ∧ (1 : SlotIdx).toNat < wholeDecode.nslot ∧
    wholeDecode.caps = ⟨none, none⟩ ∧ wholeDecode.hostq = .write 0x00 (encode (.decode 1)) :: [] ∧
    wholeDecode.beats = vd8.map (fun b => ⟨0, b⟩) ++ ⟨1, 9⟩ :: [⟨0, 5⟩] := by decide

/-- The first byte, and the last. -/
theorem witness_EncodeTransfersByte :
    ((sending imageVd8 0 [.ok]).running = some (.encode 1) ∧ (sending imageVd8 0 [.ok]).slot 1 = some imageVd8 ∧
      (encStream imageVd8)[(sending imageVd8 0 [.ok]).opos]? = some 0x66 ∧
      (sending imageVd8 0 [.ok]).sink.next = some (.ok, ⟨[], none, [], []⟩) ∧
      (sending imageVd8 0 [.ok]).opos + 1 < 16 + 8 * imageVd8.pixels.length) ∧
    ((sending imageVd8 23 [.ok]).running = some (.encode 1) ∧ (sending imageVd8 23 [.ok]).slot 1 = some imageVd8 ∧
      (encStream imageVd8)[(sending imageVd8 23 [.ok]).opos]? = some 8 ∧
      (sending imageVd8 23 [.ok]).sink.next = some (.ok, ⟨[], none, [], []⟩) ∧
      (sending imageVd8 23 [.ok]).opos + 1 = 16 + 8 * imageVd8.pixels.length) := by decide

/-- FAIL on the last byte. -/
theorem witness_EncodeWriteErrorIsIo :
    (sending imageVd8 23 [.fail]).running = some (.encode 1) ∧ (sending imageVd8 23 [.fail]).slot 1 = some imageVd8 ∧
    (sending imageVd8 23 [.fail]).opos < 16 + 8 * imageVd8.pixels.length ∧
    (sending imageVd8 23 [.fail]).sink.next = some (.fail, ⟨[], none, [], []⟩) := by decide

/-- A host about to write `ENCODE 1`, and a sink. -/
def wholeEncode (sink : Sink) : State := { writing 0x00001003 [Image.empty, imageVd8] with sink := sink }

/-- A sink that answers OK, and one whose FAIL is planned for the byte after the last. -/
theorem witness_WholeEncodeRun :
    ((wholeEncode ⟨[], some .ok, [], []⟩).ph = .idle ∧ (wholeEncode ⟨[], some .ok, [], []⟩).turns = [] ∧
      (wholeEncode ⟨[], some .ok, [], []⟩).slot 1 = some imageVd8 ∧
      (wholeEncode ⟨[], some .ok, [], []⟩).hostq = .write 0x00 (encode (.encode 1)) :: [] ∧
      (wholeEncode ⟨[], some .ok, [], []⟩).sink.plans.headD [] = [] ∧
      (wholeEncode ⟨[], some .ok, [], []⟩).sink.rest = some .ok) ∧
    (((wholeEncode ⟨[], none, [], []⟩).sinkFailAt 24).ph = .idle ∧
      ((wholeEncode ⟨[], none, [], []⟩).sinkFailAt 24).turns = [] ∧
      ((wholeEncode ⟨[], none, [], []⟩).sinkFailAt 24).slot 1 = some imageVd8 ∧
      ((wholeEncode ⟨[], none, [], []⟩).sinkFailAt 24).hostq = .write 0x00 (encode (.encode 1)) :: [] ∧
      ((wholeEncode ⟨[], none, [], []⟩).sinkFailAt 24).sink.plans.headD [] =
        List.replicate (16 + 8 * imageVd8.pixels.length) .ok ++ [.fail]) := by decide

/-- VE7: FAIL at byte 23. -/
theorem witness_WholeEncodeRunFailing :
    ((wholeEncode ⟨[], some .ok, [], []⟩).sinkFailAt 23).ph = .idle ∧
    ((wholeEncode ⟨[], some .ok, [], []⟩).sinkFailAt 23).turns = [] ∧
    ((wholeEncode ⟨[], some .ok, [], []⟩).sinkFailAt 23).slot 1 = some imageVd8 ∧
    ((wholeEncode ⟨[], some .ok, [], []⟩).sinkFailAt 23).hostq = .write 0x00 (encode (.encode 1)) :: [] ∧
    23 < 16 + 8 * imageVd8.pixels.length ∧
    ((wholeEncode ⟨[], some .ok, [], []⟩).sinkFailAt 23).sink.plans.headD [] =
      List.replicate 23 .ok ++ .fail :: [] := by decide

/-- Each cause of R205: factor 0; the width alone; the height alone. -/
theorem witness_PixelizeNonExactMultiple :
    ((shrinking imageVx1 0).running = some (.pixelize 1 0) ∧ (shrinking imageVx1 0).slot 0 = some imageVx1 ∧
      (shrinking imageVx1 0).l.a0 = 0) ∧
    ((shrinking ⟨3, 0, []⟩ 2).running = some (.pixelize 1 0) ∧
      (shrinking ⟨3, 0, []⟩ 2).slot 0 = some ⟨3, 0, []⟩ ∧ (3 : Word).toNat % (2 : Word).toNat ≠ 0) ∧
    ((shrinking ⟨0, 3, []⟩ 2).running = some (.pixelize 1 0) ∧
      (shrinking ⟨0, 3, []⟩ 2).slot 0 = some ⟨0, 3, []⟩ ∧ (3 : Word).toNat % (2 : Word).toNat ≠ 0) := by decide

/-- V1, in a unit that can just hold the result. -/
theorem witness_PixelizeAveragesBlocks :
    ({ shrinking imageV1 2 with caps := ⟨some 4, none⟩ } : State).running = some (.pixelize 1 0) ∧
    (1 : SlotIdx).toNat < (shrinking imageV1 2).nslot ∧ (shrinking imageV1 2).slot 0 = some imageV1 ∧ imageV1.wf ∧
    2 = (shrinking imageV1 2).l.a0.toNat ∧ 2 ≠ 0 ∧ 2 * 2 = imageV1.width.toNat ∧ 2 * 2 = imageV1.height.toNat ∧
    (∀ x < 2, ∀ y < 2,
      imageV1.blockTotal 2 (·.r) x y < 2 ^ 64 ∧ imageV1.blockTotal 2 (·.g) x y < 2 ^ 64 ∧
      imageV1.blockTotal 2 (·.b) x y < 2 ^ 64 ∧ imageV1.blockTotal 2 (·.a) x y < 2 ^ 64) ∧
    within ({ shrinking imageV1 2 with caps := ⟨some 4, none⟩ } : State).caps.pixcap (2 * 2) = true := by decide

/-- The largest factor the bound allows, on an image it divides, and an everyday one. -/
theorem witness_PixelizeCompletesUpToBound :
    ((shrinking ⟨0, 16777344, []⟩ 16777344).running = some (.pixelize 1 0) ∧
      (1 : SlotIdx).toNat < (shrinking ⟨0, 16777344, []⟩ 16777344).nslot ∧
      (shrinking ⟨0, 16777344, []⟩ 16777344).slot 0 = some ⟨0, 16777344, []⟩ ∧
      (Image.mk 0 16777344 []).wf ∧ (16777344 : Word) ≠ 0 ∧ (16777344 : Word).toNat ≤ 16777344 ∧
      (shrinking ⟨0, 16777344, []⟩ 16777344).caps.pixcap = none ∧
      (0 : Word).toNat % (16777344 : Word).toNat = 0 ∧
      (16777344 : Word).toNat % (16777344 : Word).toNat = 0) ∧
    ((shrinking imageV1 4).slot 0 = some imageV1 ∧ imageV1.wf ∧
      imageV1.width.toNat % (shrinking imageV1 4).l.a0.toNat = 0) := by decide

/-- A white image of one block, of the smallest factor whose block sums can reach 2^64 (section 2.7, ACC bound). -/
def whiteBlock : Image :=
  ⟨16777345, 16777345,
    List.replicate ((16777345 : Word).toNat * (16777345 : Word).toNat) ⟨65535, 65535, 65535, 65535⟩⟩

theorem witness_BlockSumOverflowRefused :
    (shrinking whiteBlock 16777345).running = some (.pixelize 1 0) ∧
    (shrinking whiteBlock 16777345).slot 0 = some whiteBlock ∧ whiteBlock.wf ∧
    16777345 = (shrinking whiteBlock 16777345).l.a0.toNat ∧ 16777345 ≠ 0 ∧
    1 * 16777345 = whiteBlock.width.toNat ∧ 1 * 16777345 = whiteBlock.height.toNat ∧ 0 < 1 ∧ 0 < 1 ∧
    ((fun p : Pixel => p.g) = (·.r) ∨ (fun p : Pixel => p.g) = (·.g) ∨ (fun p : Pixel => p.g) = (·.b) ∨
      (fun p : Pixel => p.g) = (·.a)) ∧
    2 ^ 64 ≤ whiteBlock.blockTotal 16777345 (·.g) 0 0 := by
  refine ⟨rfl, rfl, List.length_replicate, rfl, by decide, rfl, rfl, by decide, by decide,
    .inr (.inl rfl), ?_⟩
  have h := blockTotal_replicate (w := 16777345) (h := 16777345) (p := ⟨65535, 65535, 65535, 65535⟩) (·.g)
    (f := 16777345) (nw := 1) (nh := 1) (x := 0) (y := 0) rfl rfl (by decide) (by decide)
  unfold whiteBlock
  rw [h]
  decide

theorem witness_UniformImagePreserved :
    (shrinking ⟨2, 2, List.replicate 4 ⟨0x1234, 0xABCD, 1, 0xFFFE⟩⟩ 2).running = some (.pixelize 1 0) ∧
    (1 : SlotIdx).toNat < (shrinking ⟨2, 2, List.replicate 4 ⟨0x1234, 0xABCD, 1, 0xFFFE⟩⟩ 2).nslot ∧
    (shrinking ⟨2, 2, List.replicate 4 ⟨0x1234, 0xABCD, 1, 0xFFFE⟩⟩ 2).slot 0 =
      some ⟨2, 2, List.replicate ((2 : Word).toNat * (2 : Word).toNat) ⟨0x1234, 0xABCD, 1, 0xFFFE⟩⟩ ∧
    2 = (shrinking ⟨2, 2, List.replicate 4 ⟨0x1234, 0xABCD, 1, 0xFFFE⟩⟩ 2).l.a0.toNat ∧ 2 ≠ 0 ∧
    1 * 2 = (2 : Word).toNat ∧ 2 * 2 * (0xFFFE : Half).toNat < 2 ^ 64 ∧ 2 * 2 * (0xABCD : Half).toNat < 2 ^ 64 ∧
    2 * 2 * (0x1234 : Half).toNat < 2 ^ 64 ∧ 2 * 2 * (1 : Half).toNat < 2 ^ 64 ∧
    within (shrinking ⟨2, 2, List.replicate 4 ⟨0x1234, 0xABCD, 1, 0xFFFE⟩⟩ 2).caps.pixcap (1 * 1) = true := by
  decide

theorem witness_FactorOneCopies :
    (shrinking imageVx1 1).running = some (.pixelize 1 0) ∧ (1 : SlotIdx).toNat < (shrinking imageVx1 1).nslot ∧
    (shrinking imageVx1 1).slot 0 = some imageVx1 ∧ imageVx1.wf ∧ (shrinking imageVx1 1).l.a0 = 1 ∧
    within (shrinking imageVx1 1).caps.pixcap imageVx1.pixels.length = true := by decide

theorem witness_SummationOrderIrrelevant :
    ([⟨1, 2, 3, 4⟩, ⟨5, 6, 7, 8⟩] : List Pixel).Perm [⟨5, 6, 7, 8⟩, ⟨1, 2, 3, 4⟩] := by decide

/-- The largest sum, `area * 65535`. -/
theorem witness_DividersFloor :
    (7 : Word) ≠ 0 ∧ (4 : Dword) ≠ 0 ∧ (262140 : Dword).toNat ≤ (4 : Dword).toNat * 65535 := by decide

theorem witness_AccumulatorsExact : sumsFit imageV1.pixels = true := by decide

theorem witness_RegisterMap : (shrinking imageVx1 2).img[0]? = some imageVx1 := by decide

/-- The gap before the slots, the first offset after the last slot's, IMG1_HEIGHT, and an unaligned offset. -/
theorem witness_UnmappedAccesses :
    (0x1C % 4 = 0 ∧ 0x1C ≠ 0x00 ∧ 0x1C ≠ 0x04 ∧ 0x1C ≠ 0x08 ∧ 0x1C ≠ 0x0C ∧
      ∀ n < State.reset.nslot, 0x1C ≠ 0x20 + 8 * n ∧ 0x1C ≠ 0x24 + 8 * n) ∧
    (0x30 % 4 = 0 ∧ 0x30 ≠ 0x00 ∧ 0x30 ≠ 0x04 ∧ 0x30 ≠ 0x08 ∧ 0x30 ≠ 0x0C ∧
      ∀ n < State.reset.nslot, 0x30 ≠ 0x20 + 8 * n ∧ 0x30 ≠ 0x24 + 8 * n) ∧
    (1 < State.reset.nslot ∧ 0x2C = 0x24 + 8 * 1) ∧ 0x21 % 4 ≠ 0 := by decide

theorem witness_ResetStep : ({ reading [1] [] with turns := [.reset] } : State).turns = .reset :: [] := by decide

theorem witness_ResetMeetsInvariant : 2 ≤ 2 ∧ 2 ≤ 16 ∧ 2 ≤ 16 ∧ 16 ≤ 16 := by decide

/-- A NEW in progress meets the invariant, and its step is a commit. -/
theorem witness_StepKeepsInvariant : (runningNew 1 1).Inv ∧ ∃ t, step (runningNew 1 1) = .next t := by
  refine ⟨⟨by decide, by decide, by decide, by decide, by decide, by decide, by decide, by decide, by decide, ?_, ?_⟩,
    _, rfl⟩
  · intro i h; cases h; decide
  · intro h; cases h

/-- An ENCODE in progress meets the invariant. -/
theorem witness_StepNeverFaults : (sending imageVd8 23 [.ok]).Inv := by
  refine ⟨by decide, by decide, by decide, by decide, by decide, by decide, by decide, by decide, by decide, ?_, ?_⟩
  · intro i h; cases h; decide
  · intro _ im h; cases h; decide

theorem witness_PhaseTransitions :
    (State.reset.notReset ∧ State.reset.ph = .idle ∧ ∃ t, step State.reset = .next t) ∧
    ((reading [] [Beat.eos]).notReset ∧ (reading [] [Beat.eos]).ph ≠ .idle ∧
      ∃ t, step (reading [] [Beat.eos]) = .next t) :=
  ⟨⟨(fun _ h => by cases h), rfl, _, rfl⟩, ⟨(fun _ h => by cases h), by decide, _, rfl⟩⟩

theorem witness_SlotChangesOnlyAtCommit :
    (runningNew 1 1).notReset ∧ ∃ t, step (runningNew 1 1) = .next t ∧ t.img[1]? ≠ (runningNew 1 1).img[1]? :=
  ⟨(fun _ h => by cases h), _, rfl, by decide⟩

/-- A DECODE about to report HeaderToShort. -/
theorem witness_ErrorChangesNoSlot :
    (parsing []).Inv ∧ (parsing []).notReset ∧ ∃ t, step (parsing []) = .next t ∧ t.status.err = true := by
  refine ⟨⟨by decide, by decide, by decide, by decide, by decide, by decide, by decide, by decide, by decide, ?_, ?_⟩,
    (fun _ h => by cases h), _, rfl, rfl⟩
  · intro i h; cases h; decide
  · intro h; cases h

theorem witness_TokensConsumedOnlyInDecRead :
    ∃ t, step (reading [] [⟨0, 1⟩, Beat.eos]) = .next t ∧ t.beats = [Beat.eos] := ⟨_, rfl, rfl⟩

theorem witness_BytesLeaveInOrder :
    ∃ t, step (sending imageVd8 0 [.ok]) = .next t ∧ t.sink.taken = [0x66] := ⟨_, rfl, rfl⟩

/-- A DECODE with one DATA token left, one with none, and an ENCODE on its last byte with a sink that takes none, each
run two steps. -/
theorem witness_NoTimeout :
    (Turn.reset ∉ (reading [1] [⟨0, 2⟩]).turns ∧ (reading [1] [⟨0, 2⟩]).ph = .decRead ∧
      (∀ b ∈ (reading [1] [⟨0, 2⟩]).beats, b.kind = 0) ∧ ∃ t, runSteps 2 (reading [1] [⟨0, 2⟩]) = .next t) ∧
    (Turn.reset ∉ (reading [1] []).turns ∧ (reading [1] []).ph = .decRead ∧
      (∀ b ∈ (reading [1] []).beats, b.kind = 0) ∧ ∃ t, runSteps 2 (reading [1] []) = .next t) ∧
    (Turn.reset ∉ (sending imageVd8 23 []).turns ∧ (sending imageVd8 23 []).ph = .encWrite ∧
      (sending imageVd8 23 []).sink.next = none ∧
      (sending imageVd8 23 []).slot (sending imageVd8 23 []).l.src = some imageVd8 ∧
      (sending imageVd8 23 []).opos < 16 + 8 * imageVd8.pixels.length ∧
      ∃ t, runSteps 2 (sending imageVd8 23 []) = .next t) :=
  ⟨⟨by decide, rfl, by decide, _, rfl⟩, ⟨by decide, rfl, by decide, _, rfl⟩,
    ⟨by decide, rfl, rfl, rfl, by decide, _, rfl⟩⟩

/-- OVR kept by a step, and OVR set by one. -/
theorem witness_OverrunSticky :
    ((runningNew 1 1).drop.notReset ∧ (runningNew 1 1).drop.status.ovr = true ∧
      ∃ t, step (runningNew 1 1).drop = .next t) ∧
    ((hostTurn (runningNew 1 1) 0x101).notReset ∧ (hostTurn (runningNew 1 1) 0x101).status.ovr = false ∧
      (hostTurn (runningNew 1 1) 0x101).turns = .host :: [] ∧
      (hostTurn (runningNew 1 1) 0x101).hostq = .write 0x00 0x101 :: [] ∧
      (hostTurn (runningNew 1 1) 0x101).ph ≠ .idle ∧
      ∃ t, step (hostTurn (runningNew 1 1) 0x101) = .next t ∧ t.status.ovr = true) :=
  ⟨⟨(fun _ h => by cases h), rfl, _, rfl⟩, ⟨(fun _ h => by cases h), rfl, rfl, rfl, by decide, _, rfl, rfl⟩⟩

theorem witness_OutcomeKept :
    (State.reset.fail .io).notReset ∧ (∃ t, step (State.reset.fail .io) = .next t) ∧
    (State.reset.fail .io).ph = .idle ∧ ∀ w rest, (State.reset.fail .io).hostq ≠ .write 0x00 w :: rest :=
  ⟨(fun _ h => by cases h), ⟨_, rfl⟩, rfl, (fun _ _ h => by cases h)⟩

end Sys2Proof.Tests
end

section
/-! PROOFS. The big-endian primitives of R15 as numbers, and the obligation about them (O4). -/

namespace Sys2Proof.Machine

/-- Appending a byte below a bit vector: the number it extends moves up by one base-256 digit. -/
theorem toNat_append_byte {n : Nat} (x : BitVec n) (b : Byte) : (x ++ b).toNat = x.toNat * 256 + b.toNat := by
  rw [BitVec.toNat_append, ← Nat.shiftLeft_add_eq_or_of_lt b.isLt, Nat.shiftLeft_eq]

/-- The byte at bit `k` of a bit vector is a base-256 digit of its number. -/
theorem toNat_extractByte {n : Nat} (x : BitVec n) (k : Nat) :
    (x.extractLsb' k 8).toNat = x.toNat / 2 ^ k % 256 := by
  rw [BitVec.extractLsb'_toNat, Nat.shiftRight_eq_div_pow]

/-- The byte at bit `k` of a bit vector of `k + 8` bits is its most significant base-256 digit. -/
theorem toNat_extractTopByte {k : Nat} (x : BitVec (k + 8)) : (x.extractLsb' k 8).toNat = x.toNat / 2 ^ k := by
  rw [toNat_extractByte]
  exact Nat.mod_eq_of_lt (Nat.div_lt_of_lt_mul (Nat.pow_add 2 k 8 ▸ x.isLt))

/-- The byte at bit 0 of a bit vector is its least significant base-256 digit. -/
theorem toNat_extractLowByte {n : Nat} (x : BitVec n) : (x.extractLsb' 0 8).toNat = x.toNat % 256 := by
  rw [toNat_extractByte, Nat.pow_zero, Nat.div_one]

/-- `be16` as a number (R15). -/
theorem toNat_be16 (b0 b1 : Byte) : (be16 b0 b1).toNat = b0.toNat * 256 + b1.toNat :=
  toNat_append_byte b0 b1

/-- `be32` as a number (R15). -/
theorem toNat_be32 (b0 b1 b2 b3 : Byte) :
    (be32 b0 b1 b2 b3).toNat = b0.toNat * 2 ^ 24 + b1.toNat * 2 ^ 16 + b2.toNat * 2 ^ 8 + b3.toNat := by
  rw [be32, toNat_append_byte, toNat_append_byte, toNat_append_byte]
  ring

/-- `be16(enc16(v)) = v` (R15), with the bytes of `enc16` written out. -/
theorem be16_extractBytes (v : Half) : be16 (v.extractLsb' 8 8) (v.extractLsb' 0 8) = v := by
  apply BitVec.eq_of_toNat_eq
  rw [toNat_be16, toNat_extractByte, toNat_extractByte]
  have := v.isLt
  omega

/-- `be32(enc32(w)) = w` (R15), with the bytes of `enc32` written out. -/
theorem be32_extractBytes (w : Word) :
    be32 (w.extractLsb' 24 8) (w.extractLsb' 16 8) (w.extractLsb' 8 8) (w.extractLsb' 0 8) = w := by
  apply BitVec.eq_of_toNat_eq
  rw [toNat_be32, toNat_extractByte, toNat_extractByte, toNat_extractByte, toNat_extractByte]
  have := w.isLt
  omega

/-- Settles O4: a byte appended or extracted is a base-256 digit, and the digits of a number add up to it (R15). -/
theorem bigEndianPrimitives : Obligations.BigEndianPrimitives := by
  intro b0 b1 b2 b3 v w
  refine ⟨toNat_be16 b0 b1, toNat_be32 b0 b1 b2 b3, ⟨_, _, rfl, ?_, ?_, be16_extractBytes v⟩,
    ⟨_, _, _, _, rfl, ?_, ?_, ?_, ?_, be32_extractBytes w⟩⟩
  · exact toNat_extractTopByte (k := 8) v
  · exact toNat_extractLowByte v
  · exact toNat_extractTopByte (k := 24) w
  · exact toNat_extractByte w 16
  · exact toNat_extractByte w 8
  · exact toNat_extractLowByte w

end Sys2Proof.Machine
end

section
/-! PROOFS. What `exec` of a command answers in an idle unit, in a unit busy with another command, and at one byte or
token of its own (O13, O14, O19, O30); the step that runs it (O9, O10, O11); and what no command changes or reads
(O15, O16). -/

namespace Sys2Proof.Machine

variable {s : State} {i : Instr}

/-! ### A command in an idle unit -/

/-- Settles O13: the issue, with what DECODE and ENCODE clear on top of it. -/
theorem execIssuesLegalCommand : Obligations.ExecIssuesLegalCommand := by
  intro i s hp hl
  cases i with
  | new dst => rw [exec, execNew, if_pos hp, if_pos hl]; rfl
  | decode dst => rw [exec, execDecode, if_pos hp, if_pos hl]; rfl
  | encode src => rw [exec, execEncode, if_pos hp, if_pos hl]; rfl
  | pixelize dst src => rw [exec, execPixelize, if_pos hp, if_pos hl]; rfl

theorem exec_idle_illegal (hp : s.ph = .idle) (hl : i.legal s.nslot = false) :
    exec i s = .next (s.fail .illegalCommand) := by
  cases i <;> simp [exec, execNew, execDecode, execEncode, execPixelize, hp, hl]

theorem exec_dropped (hp : s.ph ≠ .idle) (hr : s.running ≠ some i) : exec i s = .next s.drop := by
  cases i <;> simp [exec, execNew, execDecode, execEncode, execPixelize, hp, hr]

/-- A refusal leaves an idle unit idle: only STATUS changes. -/
theorem State.fail_idle (hp : s.ph = .idle) (k : ErrKind) : s.fail k = { s with status := s.status.failed k } := by
  rw [State.fail, ← hp]

/-- Settles O14: the refusal in an idle unit, and the drop in a busy one. -/
theorem execTurnsCommandAway : Obligations.ExecTurnsCommandAway := by
  intro i s
  constructor
  · intro hp hl
    rw [exec_idle_illegal hp hl, State.fail_idle hp]
    rfl
  · intro hp hr
    rw [exec_dropped hp hr]
    rfl

/-! ### The step that runs a command -/

/-- Settles O10: the host's step hands the word of an idle unit to the decoder, and with no turn listed an idle unit
leaves the step to the host. -/
theorem stepRunsWrittenCommand : Obligations.StepRunsWrittenCommand := by
  intro s w i rest hq hp hd
  constructor
  · intro ts ht
    rw [step_writeCmd ht hq]
    exact writeCmd_decoded hp hd
  · intro ht
    have hidle : s.unitEnabled = false := by simp [State.unitEnabled, hp]
    have hhost : step s = writeCmd w { s with hostq := rest } := by
      simp [step, ht, defaultStep, hidle, hostStep, hq, hostAct]
    rw [hhost]
    exact writeCmd_decoded hp hd

theorem unitStep_running (hr : s.running = some i) : unitStep s = exec i s := by
  rw [unitStep, hr]

/-- Settles O11: the unit's turn, or the default turn, is a step of the unit. -/
theorem stepRunsCommandInProgress : Obligations.StepRunsCommandInProgress := by
  intro s i hr
  constructor
  · intro ts ht
    have hturn : step s = unitStep { s with turns := ts } := by simp [step, ht, turnStep]
    exact hturn.trans (unitStep_running hr)
  · intro ht he
    have hdefault : step s = unitStep s := by simp [step, ht, defaultStep, he]
    exact hdefault.trans (unitStep_running hr)

/-- A word that decodes to a command holds the command's own fields, an unused field being 0 (R81 to R83). -/
theorem fields_of_decode {w : Word} (h : decode w = some i) :
    wordOpc w = i.opc ∧ wordDst w = i.dstField ∧ wordSrc w = i.srcField := by
  unfold decode at h
  split at h
  · obtain ⟨-, hsrc, hopc⟩ := (rowNew_selects_iff w).1 ‹_›
    cases h; exact ⟨hopc, rfl, hsrc⟩
  · split at h
    · obtain ⟨-, hsrc, hopc⟩ := (rowDecode_selects_iff w).1 ‹_›
      cases h; exact ⟨hopc, rfl, hsrc⟩
    · split at h
      · obtain ⟨-, hdst, hopc⟩ := (rowEncode_selects_iff w).1 ‹_›
        cases h; exact ⟨hopc, hdst, rfl⟩
      · split at h
        · obtain ⟨-, hopc⟩ := (rowPixelize_selects_iff w).1 ‹_›
          cases h; exact ⟨hopc, rfl, rfl⟩
        · cases h

theorem decode_of_decodeLegal {n : Nat} {w : Word} (h : (decodeLegal n w).isSome = true) :
    ∃ i, decode w = some i ∧ i.legal n = true := by
  obtain ⟨i, hi⟩ := Option.isSome_iff_exists.1 h
  exact ⟨i, Option.filter_eq_some_iff.1 hi⟩

/-- The phase a command's issue enters, by its operation code (R42, R82). -/
theorem firstPhase_eq_of_opc (i : Instr) :
    firstPhase i =
      if i.opc = 1 then .newRun else if i.opc = 2 then .decRead else if i.opc = 3 then .encWrite else .pixRun := by
  cases i <;> rfl

/-- Settles O9: the step runs the decoded command, which is legal and so is issued, with the fields of the word. -/
theorem legalWordIssued : Obligations.LegalWordIssued := by
  intro s w rest ts ht hq hp hl
  obtain ⟨i, hd, hi⟩ := decode_of_decodeLegal hl
  obtain ⟨hopc, hdst, hsrc⟩ := fields_of_decode hd
  unfold wordOpc at hopc
  unfold wordDst at hdst
  unfold wordSrc at hsrc
  rw [(stepRunsWrittenCommand s w i rest hq hp hd).1 ts ht, hopc, hdst, hsrc, ← firstPhase_eq_of_opc]
  exact execIssuesLegalCommand i { s with turns := ts, hostq := rest } hp hi

/-! ### One token, one byte -/

/-- Settles O19: the token at the head of the queue is DATA or EOS. -/
theorem decodeReadsToken : Obligations.DecodeReadsToken := by
  intro s d b t hr hp
  rw [exec_decode_reading hr hp]
  constructor
  · intro hbeats hfit
    simp [readToken, hbeats, Beat.token, hfit]
  · intro hbeats
    simp [readToken, hbeats, Beat.token]

/-- Settles O30: the byte offered is the stream's at OPOS, and the stream is `16 + 8 * plen` bytes long. -/
theorem encodeTransfersByte : Obligations.EncodeTransfersByte := by
  intro s n im b k hr hslot hbyte hsink
  have hsrc : s.slot s.l.src = some im := (State.running_encode.1 hr).2 ▸ hslot
  have htaken : k.taken = s.sink.taken := Sink.next_taken hsink
  rw [exec_encode_running hr]
  constructor
  · intro hmore
    simp [writeByte, hsrc, hbyte, hsink, htaken, hmore]
  · intro hlast
    simp only [writeByte, hsrc, hbyte, hsink, htaken, encStream_length, hlast, lt_irrefl, if_false]
    rfl

/-! ### What no command changes -/

/-- Whatever `exec` answers, it is a move of the command in progress, or what a command word does. -/
theorem exec_next {t : State} (h : exec i s = .next t) : UnitMove s t ∨ CmdMove s t := by
  by_cases hp : s.ph = .idle
  · exact .inr (exec_idle_next hp h)
  · by_cases hr : s.running = some i
    · exact .inl (exec_running_next hr h)
    · rw [exec_dropped hp hr] at h
      cases h
      exact .inr (.dropped hp)

/-- What no command ever changes: the operands, the parameters, the host and the turns (R7, R27). -/
def State.SameFrame (s t : State) : Prop :=
  t.arg0 = s.arg0 ∧ t.arg1 = s.arg1 ∧ t.nslot = s.nslot ∧ t.caps = s.caps ∧
  t.hostq = s.hostq ∧ t.seen = s.seen ∧ t.turns = s.turns

theorem UnitMove.sameFrame {t : State} (m : UnitMove s t) : s.SameFrame t := by
  cases m with
  | committedNew => exact ⟨rfl, rfl, List.length_set, rfl, rfl, rfl, rfl⟩
  | committedDecode => exact ⟨rfl, rfl, List.length_set, rfl, rfl, rfl, rfl⟩
  | committedPixelize => exact ⟨rfl, rfl, List.length_set, rfl, rfl, rfl, rfl⟩
  | _ => exact ⟨rfl, rfl, rfl, rfl, rfl, rfl, rfl⟩

theorem CmdMove.sameFrame {t : State} (m : CmdMove s t) : s.SameFrame t := by
  cases m <;> exact ⟨rfl, rfl, rfl, rfl, rfl, rfl, rfl⟩

/-- Settles O16: each move leaves the frame as it is, a commit replacing one slot of the file. -/
theorem execFrame : Obligations.ExecFrame := by
  intro i s t h
  exact (exec_next h).elim UnitMove.sameFrame CmdMove.sameFrame

/-! ### A command in progress reads the latch, not the operands -/

/-- The state with other values in ARG0 and ARG1. -/
def State.withArgs (s : State) (x y : Word) : State := { s with arg0 := x, arg1 := y }

/-- An outcome with other values in ARG0 and ARG1 of its next state. -/
def outWithArgs (x y : Word) : Out → Out
  | .next t => .next (t.withArgs x y)
  | .fault r => .fault r
  | .refused r => .refused r

variable (x y : Word)

theorem outWithArgs_ite (c : Prop) [Decidable c] (a b : Out) :
    outWithArgs x y (if c then a else b) = if c then outWithArgs x y a else outWithArgs x y b :=
  apply_ite _ _ _ _

theorem commit_withArgs (d : SlotIdx) (im : Image) :
    (s.withArgs x y).commit d im = outWithArgs x y (s.commit d im) := by
  unfold State.commit
  rw [outWithArgs_ite, outWithArgs_ite]
  rfl

theorem runNew_withArgs : runNew (s.withArgs x y) = outWithArgs x y (runNew s) :=
  commit_withArgs x y _ _

theorem readToken_withArgs : readToken (s.withArgs x y) = outWithArgs x y (readToken s) := by
  simp only [readToken, State.withArgs]
  split
  · rfl
  · split
    · rfl
    · rw [outWithArgs_ite]; rfl
    · rfl
    · rfl

theorem runParse_withArgs : runParse (s.withArgs x y) = outWithArgs x y (runParse s) := by
  simp only [runParse, State.withArgs]
  split
  · rfl
  · exact commit_withArgs (s := s.emptyBuffer) x y _ _

theorem writeByte_withArgs : writeByte (s.withArgs x y) = outWithArgs x y (writeByte s) := by
  simp only [writeByte, State.withArgs, State.slot]
  split
  · rfl
  · split
    · rfl
    · split
      · rfl
      · rfl
      · rw [outWithArgs_ite]; rfl

theorem runPixelize_withArgs : runPixelize (s.withArgs x y) = outWithArgs x y (runPixelize s) := by
  simp only [runPixelize, State.withArgs, State.slot]
  split
  · rfl
  · next im _ =>
    by_cases hz : s.l.a0 = 0
    · simp only [hz, if_true]; rfl
    · by_cases hm : mod32 im.width s.l.a0 ≠ 0 ∨ mod32 im.height s.l.a0 ≠ 0
      · simp only [hz, hm, if_true, if_false]; rfl
      · simp only [hz, hm, if_false]
        split
        · rfl
        · next blocks _ =>
          rw [outWithArgs_ite, ← commit_withArgs]
          rfl

theorem exec_running_withArgs (hr : s.running = some i) :
    exec i (s.withArgs x y) = outWithArgs x y (exec i s) := by
  have hr' : (s.withArgs x y).running = some i := hr
  cases i with
  | new d =>
    rw [exec_new_running hr, exec_new_running hr', runNew_withArgs]
  | decode d =>
    obtain ⟨hp | hp, -⟩ := State.running_decode.1 hr
    · rw [exec_decode_reading hr hp, exec_decode_reading hr' hp, readToken_withArgs]
    · rw [exec_decode_parsing hr hp, exec_decode_parsing hr' hp, runParse_withArgs]
  | encode n =>
    rw [exec_encode_running hr, exec_encode_running hr', writeByte_withArgs]
  | pixelize d n =>
    rw [exec_pixelize_running hr, exec_pixelize_running hr', runPixelize_withArgs]

/-- Settles O15: changing ARG0 and ARG1 commutes with the next step of the command in progress. -/
theorem runningCommandIgnoresArgs : Obligations.RunningCommandIgnoresArgs := by
  intro i s t x y hr h
  have hcomm := exec_running_withArgs x y hr
  rw [h] at hcomm
  exact hcomm

end Sys2Proof.Machine
end

section
/-! PROOFS. The register map (R30 to R34, R39, R45, R58) and the obligations about it (O45, O46, O47), and reset (R46,
R230; O48, O49). -/

namespace Sys2Proof.Machine

variable (s : State) (v : Word)

/-! ### Accesses -/

theorem hostAct_read {off : Nat} (ha : off % 4 = 0) :
    hostAct (.read off) s = .next { s with seen := s.seen ++ [s.readReg off] } := by
  simp [hostAct, ha]

theorem hostAct_write {off : Nat} (ha : off % 4 = 0) (h0 : off ≠ 0x00) :
    hostAct (.write off v) s = .next (s.writeReg off v) := by
  simp [hostAct, ha, h0]

/-- A write of anything but CMD, ARG0 and ARG1 is ignored (R45). -/
theorem hostAct_write_ignored {off : Nat} (ha : off % 4 = 0) (h0 : off ≠ 0x00) (h4 : off ≠ 0x04) (h8 : off ≠ 0x08) :
    hostAct (.write off v) s = .next s := by
  rw [hostAct_write s v ha h0, State.writeReg, if_neg h4, if_neg h8]

/-- Past the control registers a read looks into the slot file, eight bytes to a slot (R39). -/
theorem State.readReg_slots {off : Nat} (hoff : 0x20 ≤ off) :
    s.readReg off = (s.img[(off - 0x20) / 8]?).elim 0 fun im =>
      if (off - 0x20) % 8 = 0 then im.width else if (off - 0x20) % 8 = 4 then im.height else 0 := by
  rw [State.readReg, if_neg (by omega), if_neg (by omega), if_neg (by omega), if_neg (by omega),
    if_neg (by omega)]
  cases s.img[(off - 0x20) / 8]? <;> rfl

theorem State.readReg_width {n : Nat} {im : Image} (h : s.img[n]? = some im) :
    s.readReg (0x20 + 8 * n) = im.width := by
  rw [s.readReg_slots (by omega), show (0x20 + 8 * n - 0x20) / 8 = n by omega, h]
  exact if_pos (by omega)

theorem State.readReg_height {n : Nat} {im : Image} (h : s.img[n]? = some im) :
    s.readReg (0x24 + 8 * n) = im.height := by
  rw [s.readReg_slots (by omega), show (0x24 + 8 * n - 0x20) / 8 = n by omega, h]
  exact (if_neg (by omega)).trans (if_pos (by omega))

theorem State.readReg_past_slots {off : Nat} (hoff : 0x20 + 8 * s.nslot ≤ off) : s.readReg off = 0 := by
  have hnone : s.img[(off - 0x20) / 8]? = none := List.getElem?_eq_none (by unfold State.nslot at hoff; omega)
  rw [s.readReg_slots (by omega), hnone]
  rfl

/-- An aligned offset that is no register lies between STATUS and the slot registers, or past them. -/
theorem State.readReg_unmapped {off : Nat} (ha : off % 4 = 0) (h0 : off ≠ 0x00) (h4 : off ≠ 0x04)
    (h8 : off ≠ 0x08) (hc : off ≠ 0x0C) (hslot : ∀ n, n < s.nslot → off ≠ 0x20 + 8 * n ∧ off ≠ 0x24 + 8 * n) :
    s.readReg off = 0 := by
  by_cases hlow : off < 0x20
  · rw [State.readReg, if_neg h0, if_neg h4, if_neg h8, if_neg hc, if_pos hlow]
  · have hpast : s.nslot ≤ (off - 0x20) / 8 := by
      by_contra hn
      have := hslot _ (Nat.lt_of_not_le hn)
      omega
    exact s.readReg_past_slots (by omega)

/-! ### STATUS -/

theorem State.busy_eq_decide : s.busy = decide (s.ph ≠ .idle) := by
  by_cases h : s.ph = .idle <;> simp [State.busy, h]

/-- The fields of STATUS by bit position (R33). -/
theorem State.statusWord_getLsbD {k : Nat} (hk : k < 32) :
    s.statusWord.getLsbD k =
      if k = 0 then s.busy else if k = 1 then s.status.done else if k = 2 then s.status.err
      else if k = 3 then s.status.ovr else s.status.kind.getLsbD (k - 4) := by
  have hbits : s.statusWord.getLsbD k =
      ((((s.status.kind.concat s.status.ovr).concat s.status.err).concat s.status.done).concat s.busy).getLsbD k :=
    (BitVec.getLsbD_setWidth _ _ _).trans (by rw [decide_eq_true hk]; rfl)
  simp only [hbits, BitVec.getLsbD_concat]
  rcases k with _ | _ | _ | _ | k <;> rfl

/-- Past the four flags STATUS holds KIND, whose bits end at bit 7 (R33). -/
theorem State.statusWord_getLsbD_kind {k : Nat} (hk : k < 28) :
    s.statusWord.getLsbD (4 + k) = s.status.kind.getLsbD k := by
  rw [s.statusWord_getLsbD (by omega), if_neg (by omega), if_neg (by omega), if_neg (by omega),
    if_neg (by omega), Nat.add_sub_cancel_left]

/-- Settles O45: every field is read at its position, and no bit lies above KIND. -/
theorem statusRegister : Obligations.StatusRegister := by
  intro s v
  refine ⟨rfl, ?_, s.statusWord_getLsbD (by decide), s.statusWord_getLsbD (by decide),
    s.statusWord_getLsbD (by decide), ?_, ?_, hostAct_read s (by decide),
    hostAct_write_ignored s v (by decide) (by decide) (by decide) (by decide)⟩
  · exact (s.statusWord_getLsbD (by decide)).trans s.busy_eq_decide
  · apply BitVec.eq_of_getLsbD_eq
    intro k hk
    rw [BitVec.getLsbD_extractLsb', s.statusWord_getLsbD_kind (by omega), decide_eq_true hk, Bool.true_and]
  · apply BitVec.eq_of_getLsbD_eq
    intro k hk
    have hhigh : s.status.kind.getLsbD (4 + k) = false := BitVec.getLsbD_of_ge _ _ (by omega)
    rw [BitVec.getLsbD_extractLsb', show 8 + k = 4 + (4 + k) by omega, s.statusWord_getLsbD_kind (by omega), hhigh]
    simp

/-- Settles O46: each mapped offset by the law of its register. -/
theorem registerMap : Obligations.RegisterMap := by
  intro s v
  refine ⟨hostAct_read s (by decide), hostAct_read s (by decide), hostAct_read s (by decide),
    hostAct_write s v (by decide) (by decide), hostAct_write s v (by decide) (by decide), fun n im him => ?_⟩
  have hw := hostAct_read s (off := 0x20 + 8 * n) (by omega)
  have hh := hostAct_read s (off := 0x24 + 8 * n) (by omega)
  rw [s.readReg_width him] at hw
  rw [s.readReg_height him] at hh
  exact ⟨hw, hh, hostAct_write_ignored s v (by omega) (by omega) (by omega) (by omega),
    hostAct_write_ignored s v (by omega) (by omega) (by omega) (by omega)⟩

/-- Settles O47: unmapped, read-only, unaligned and narrow accesses in turn. -/
theorem unmappedAccesses : Obligations.UnmappedAccesses := by
  intro s off v
  refine ⟨fun ha h0 h4 h8 hc hslot => ?_, fun hro => ?_, fun ha => ?_, rfl⟩
  · have hr := hostAct_read s ha
    rw [s.readReg_unmapped ha h0 h4 h8 hc hslot] at hr
    exact ⟨hr, hostAct_write_ignored s v ha h0 h4 h8⟩
  · have ha : off % 4 = 0 ∧ 0x0C ≤ off := by
      obtain rfl | ⟨n, -, rfl | rfl⟩ := hro <;> omega
    exact hostAct_write_ignored s v ha.1 (by omega) (by omega) (by omega)
  · exact ⟨if_neg ha, if_neg ha⟩

/-! ### Reset -/

/-- Settles O48: the turn taken, the state is reset. -/
theorem resetStep : Obligations.ResetStep := by
  intro s ts ht
  rw [step, ht]
  rfl

/-- Settles O49: the fields of the reset state, and the three views of it. -/
theorem resetValues : Obligations.ResetValues := by
  refine ⟨rfl, rfl, rfl, rfl, ?_, rfl, rfl, rfl, rfl, rfl, rfl, rfl⟩
  decide

end Sys2Proof.Machine
end

section
/-! PROOFS. The invariant of the unit: each shared operation keeps it, and so every move of the unit and of the host
does (O50, O51); under it no step faults (O52). -/

namespace Sys2Proof.Machine

theorem within_zero (cap : Option Nat) : within cap 0 = true := by
  cases cap <;> simp [within]

@[simp] theorem State.running_issue (s : State) (i : Instr) : (s.issue i).running = some i := by
  cases i <;> rfl

theorem ErrKind.code_ne_zero (k : ErrKind) : k.code ≠ 0 := by
  cases k <;> decide

/-- The values KIND can take, but for 0 (R36, R200). -/
theorem ErrKind.code_mem_kinds (k : ErrKind) : k.code ∈ [0, 1, 2, 3, 4, 5, 8] := by
  cases k <;> decide

/-! ### The images a command can commit -/

theorem mul64_toNat (a b : Word) : (mul64 a b).toNat = a.toNat * b.toNat := by
  have ha := a.isLt
  have hb := b.isLt
  have : a.toNat * b.toNat < 2 ^ 32 * 2 ^ 32 := Nat.mul_lt_mul'' ha hb
  rw [mul64, BitVec.toNat_mul, BitVec.toNat_setWidth, BitVec.toNat_setWidth,
    Nat.mod_eq_of_lt (by omega : a.toNat < 2 ^ 64), Nat.mod_eq_of_lt (by omega : b.toNat < 2 ^ 64),
    Nat.mod_eq_of_lt (by omega)]

/-- A quotient without remainder, multiplied by its divisor, is the dividend (R182). -/
theorem div32_mul_of_mod32_eq_zero {a f : Word} (h : mod32 a f = 0) : (div32 a f).toNat * f.toNat = a.toNat := by
  have hmod : a.toNat % f.toNat = 0 := by simpa [mod32] using congrArg BitVec.toNat h
  rw [div32, BitVec.toNat_udiv]
  exact Nat.div_mul_cancel (Nat.dvd_of_mod_eq_zero hmod)

theorem newImage_wf (w h : Word) : (newImage w h).wf := by
  simp [Image.wf, newImage, mul64_toNat]

theorem parseFrame_image_wf {buf : List Byte} {im : Image} (h : parseFrame buf = .image im) : im.wf := by
  unfold parseFrame at h
  split at h
  · cases h
  · split at h
    · cases h
    · dsimp only at h
      split at h
      · cases h
      · cases h
        simp [Image.wf, mul64_toNat]

theorem readBlocks_length {im : Image} {f : Nat} {cs : List (Nat × Nat)} {blocks : List (List Pixel)}
    (h : readBlocks im f cs = some blocks) : blocks.length = cs.length := by
  induction cs generalizing blocks with
  | nil => cases h; rfl
  | cons c cs ih =>
    rw [readBlocks] at h
    split at h
    · cases h; simp [ih ‹_›]
    · cases h

/-- The averages of one block per output pixel fill an image of the output's dimensions (R163). -/
theorem averages_wf {im : Image} {f : Nat} {nw nh : Word} {blocks : List (List Pixel)} (area : Dword)
    (h : readBlocks im f (outCoords nw.toNat nh.toNat) = some blocks) :
    (Image.mk nw nh (blocks.map (averagePixel area))).wf := by
  simp [Image.wf, readBlocks_length h, outCoords_length]

/-! ### Each shared operation keeps the invariant -/

variable {s : State}

/-- The part of a state the invariant speaks of: not the operands, the accumulators or the agents. -/
def State.invView (s : State) : State :=
  { s with
    arg0 := 0, arg1 := 0, acc := Accs.zero, hostq := [], seen := [], beats := [], sink := ⟨[], none, [], []⟩,
    turns := [] }

theorem State.Inv.of_invView {t : State} (h : s.Inv) (hview : t.invView = s.invView) : t.Inv :=
  have hs : s.invView.Inv := { h with }
  have ht : t.invView.Inv := hview ▸ hs
  { ht with }

/-- Outside the two phases of a DECODE the buffer is empty (R43). -/
theorem State.Inv.noBuffer (h : s.Inv) {p : Phase} (hp : s.ph = p)
    (hne : p ≠ .decRead ∧ p ≠ .decParse := by decide) : s.ibuf = [] :=
  h.buffer (hp ▸ hne.1) (hp ▸ hne.2)

theorem State.Inv.setOpos (h : s.Inv) (n : Nat)
    (hn : s.ph = .encWrite → ∀ im, s.slot s.l.src = some im → n < 16 + 8 * im.pixels.length) :
    State.Inv { s with opos := n } :=
  { h with position := hn }

theorem State.Inv.emptyBuffer (h : s.Inv) : s.emptyBuffer.Inv :=
  { h with
    bytes := within_zero _
    buffer := fun _ _ => rfl }

/-- An idle unit has nothing in its latch to keep legal, and no position. -/
theorem State.Inv.of_idle (h : s.Inv) {f : Status} (hb : s.ibuf = []) (hdone : f.done = true)
    (hkind : f.err = true ↔ f.kind ≠ 0) (hkinds : f.kind ∈ [0, 1, 2, 3, 4, 5, 8]) :
    State.Inv { s with ph := .idle, status := f } :=
  { h with
    busyClear := fun hp => absurd rfl hp
    errDone := fun _ => hdone
    errKind := hkind
    kinds := hkinds
    buffer := fun _ _ => hb
    latched := fun _ hr => by cases hr
    position := fun hp => by cases hp }

theorem State.Inv.fail (h : s.Inv) (hb : s.ibuf = []) (k : ErrKind) : (s.fail k).Inv :=
  h.of_idle hb rfl ⟨fun _ => k.code_ne_zero, fun _ => rfl⟩ k.code_mem_kinds

theorem State.Inv.succeed (h : s.Inv) (hb : s.ibuf = []) : s.succeed.Inv :=
  h.of_idle hb rfl h.errKind h.kinds

theorem State.Inv.drop (h : s.Inv) : s.drop.Inv :=
  { h with }

theorem State.Inv.setSlot (h : s.Inv) (hp : s.ph ≠ .encWrite) (n : Nat) {im : Image} (hwf : im.wf)
    (hfit : within s.caps.pixcap im.pixels.length = true) : State.Inv { s with img := s.img.set n im } := by
  have hlen : State.nslot { s with img := s.img.set n im } = s.nslot := List.length_set
  exact { h with
    slots := hlen ▸ h.slots
    images := fun j hj => (List.mem_or_eq_of_mem_set hj).elim (h.images j) (· ▸ hwf)
    pixels := fun j hj => (List.mem_or_eq_of_mem_set hj).elim (h.pixels j) (· ▸ hfit)
    latched := fun i hi => hlen ▸ h.latched i hi
    position := fun he => absurd he hp }

theorem State.Inv.issue (h : s.Inv) (hp : s.ph = .idle) {i : Instr} (hl : i.legal s.nslot = true) (sink : Sink) :
    State.Inv { s.issue i with
      ibuf := if i.opc = 2 then [] else s.ibuf
      opos := if i.opc = 3 then 0 else s.opos
      sink := sink } := by
  have hb : (if i.opc = 2 then [] else s.ibuf) = [] := by
    rw [h.noBuffer hp, ite_self]
  exact { h with
    bytes := by rw [hb]; exact within_zero _
    busyClear := fun _ => ⟨rfl, rfl, rfl⟩
    errDone := fun he => by cases he
    errKind := by simp
    kinds := by simp
    buffer := fun _ _ => hb
    latched := fun j hj => by
      obtain rfl : i = j := Option.some.inj ((s.running_issue i).symm.trans hj)
      exact ⟨hl, rfl, rfl, rfl⟩
    position := fun he im _ => by
      cases i with
      | encode src => simp [Instr.opc]
      | new | decode | pixelize => cases he }

/-! ### Every move keeps the invariant -/

theorem CmdMove.inv {t : State} (m : CmdMove s t) (h : s.Inv) : t.Inv := by
  cases m with
  | issued i hp hl => exact h.issue hp hl _
  | illegal hp => exact h.fail (h.noBuffer hp) _
  | dropped hp => exact h.drop

theorem HostMove.inv {t : State} (m : HostMove s t) (h : s.Inv) : t.Inv := by
  cases m with
  | nothing => exact h
  | command w rest t hq m => exact m.inv (h.of_invView rfl)
  | access op rest queue seen arg0 arg1 => exact h.of_invView rfl

/-- The end of the stream is in DEC_READ, and the same DECODE goes on in DEC_PARSE. -/
theorem State.Inv.startParse (h : s.Inv) (hp : s.ph = .decRead) : State.Inv { s with ph := .decParse } :=
  { h with
    busyClear := fun _ => h.busyClear (by simp [hp])
    buffer := fun _ hn => absurd rfl hn
    latched := fun i hi => h.latched i (by simpa [State.running, hp] using hi)
    position := fun he => by cases he }

theorem State.Inv.readByte (h : s.Inv) (hp : s.ph = .decRead) (b : Byte)
    (hfit : within s.caps.ibufcap (s.ibuf.length + 1) = true) : State.Inv { s with ibuf := s.ibuf ++ [b] } :=
  { h with
    bytes := by simpa using hfit
    buffer := fun hn => absurd hp hn }

theorem UnitMove.inv {t : State} (m : UnitMove s t) (h : s.Inv) : t.Inv := by
  have withBeats (rest : List Beat) : State.Inv { s with beats := rest } :=
    h.of_invView rfl
  have withSink (k : Sink) : State.Inv { s with sink := k } :=
    h.of_invView rfl
  cases m with
  | awaitToken => exact h
  | awaitSink => exact h
  | data b beat rest hp _ _ hfit => exact (withBeats rest).readByte hp b hfit
  | eos beat rest hp => exact (withBeats rest).startParse hp
  | readError beat rest => exact (withBeats rest).emptyBuffer.fail rfl .io
  | parseError k => exact h.emptyBuffer.fail rfl k
  | nonExact im hp => exact h.fail (h.noBuffer hp) _
  | committedNew hp _ hfit =>
    exact (h.setSlot (by simp [hp]) _ (newImage_wf _ _) hfit).succeed (h.noBuffer hp)
  | committedDecode im hp himg _ hfit =>
    exact (h.emptyBuffer.setSlot (by simp [hp]) _ (parseFrame_image_wf himg) hfit).succeed rfl
  | committedPixelize im blocks hp _ _ _ _ hread _ _ hfit =>
    have hacc : State.Inv { s with acc := accsAfter s.acc blocks } := h.of_invView rfl
    exact (hacc.setSlot (by simp [hp]) _ (averages_wf _ hread) hfit).succeed
      (h.noBuffer hp)
  | sent im b k hp hslot _ _ hmore =>
    refine (withSink { k with taken := k.taken ++ [b] }).setOpos _ fun _ im' him' => ?_
    obtain rfl : im = im' := Option.some.inj (hslot.symm.trans him')
    rwa [encStream_length] at hmore
  | sentLast im b k hp =>
    have hdone := (withSink { k with taken := k.taken ++ [b] }).succeed (h.noBuffer hp)
    exact hdone.setOpos _ fun he => by cases he
  | sinkError im b k hp => exact (withSink k).fail (h.noBuffer hp) .io
  | nothingLeft im hp => exact h.succeed (h.noBuffer hp)

/-- Settles O50: the slots are empty images, the unit is idle and every other field is 0. -/
theorem resetMeetsInvariant : Obligations.ResetMeetsInvariant := by
  intro nslot caps h2 h16
  have empty : ∀ im ∈ (State.resetOf nslot caps).img, im = Image.empty := fun im him => List.eq_of_mem_replicate him
  have hn : (State.resetOf nslot caps).nslot = nslot := List.length_replicate
  exact {
    slots := by rw [hn]; exact ⟨h2, h16⟩
    images := fun im him => by rw [empty im him]; rfl
    pixels := fun im him => by rw [empty im him]; exact within_zero _
    bytes := within_zero _
    busyClear := fun hp => absurd rfl hp
    errDone := fun he => by cases he
    errKind := (by decide : Status.zero.err = true ↔ Status.zero.kind ≠ 0)
    kinds := (by decide : Status.zero.kind ∈ [0, 1, 2, 3, 4, 5, 8])
    buffer := fun _ _ => rfl
    latched := fun _ hr => by cases hr
    position := fun hp => by cases hp }

/-- A reset step leaves the unit as the reset state of its own parameters, and the agents as they are (R230, R231). -/
theorem State.Inv.rst (h : s.Inv) : s.rst.Inv :=
  (resetMeetsInvariant s.nslot s.caps h.slots.1 h.slots.2).of_invView rfl

/-- Settles O51: a step is a reset, an idle turn, or a move of the unit or of the host, and each keeps the invariant. -/
theorem stepKeepsInvariant : Obligations.StepKeepsInvariant := by
  intro s t h hstep
  have hturn : s.turnTaken.Inv := h.of_invView rfl
  obtain ⟨-, rfl⟩ | ⟨-, rfl⟩ | m | m := step_next hstep
  · exact hturn.rst
  · exact hturn
  · exact m.inv hturn
  · exact m.inv hturn

/-! ### Under the invariant nothing faults -/

theorem exec_idle_ne_fault (hp : s.ph = .idle) (i : Instr) (r : Fault) : exec i s ≠ .fault r := by
  cases hl : i.legal s.nslot with
  | true => simp [execIssuesLegalCommand i s hp hl]
  | false => simp [exec_idle_illegal hp hl]

theorem writeCmd_ne_fault (w : Word) (r : Fault) : writeCmd w s ≠ .fault r := by
  by_cases hp : s.ph = .idle
  · cases hd : decode w with
    | none => simp [writeCmd_reserved hp hd]
    | some i => rw [writeCmd_decoded hp hd]; exact exec_idle_ne_fault hp i r
  · simp [writeCmd_busy w hp]

theorem hostAct_ne_fault (op : HostOp) (r : Fault) : hostAct op s ≠ .fault r := by
  cases op with
  | read off => by_cases ha : off % 4 = 0 <;> simp [hostAct, ha]
  | write off v =>
    by_cases h0 : off = 0x00
    · subst h0
      exact writeCmd_ne_fault v r
    · by_cases ha : off % 4 = 0 <;> simp [hostAct, ha, h0]
  | narrow off => simp [hostAct]
  | waitDone => cases hd : s.status.done <;> simp [hostAct, hd]

theorem hostStep_ne_fault (r : Fault) : hostStep s ≠ .fault r := by
  cases hq : s.hostq with
  | nil => simp [hostStep, hq]
  | cons op rest => simpa only [hostStep, hq] using hostAct_ne_fault op r

theorem readToken_ne_fault (r : Fault) : readToken s ≠ .fault r := by
  unfold readToken
  split
  · simp
  · split
    · simp
    · split <;> simp
    · simp
    · simp

theorem State.slot_of_lt {d : SlotIdx} (hd : d.toNat < s.nslot) : ∃ im, s.slot d = some im ∧ im ∈ s.img :=
  ⟨_, List.getElem?_eq_getElem hd, List.getElem_mem hd⟩

theorem State.commit_ne_fault {d : SlotIdx} (hd : d.toNat < s.nslot) (im : Image) (r : Fault) :
    s.commit d im ≠ .fault r :=
  fun h => absurd (State.commit_fault.1 h).1 (by omega)

theorem runParse_ne_fault (hd : s.l.dst.toNat < s.nslot) (r : Fault) : runParse s ≠ .fault r := by
  unfold runParse
  split
  · simp
  · exact State.commit_ne_fault (s := s.emptyBuffer) hd _ r

theorem writeByte_ne_fault (hn : s.l.src.toNat < s.nslot) (r : Fault) : writeByte s ≠ .fault r := by
  obtain ⟨im, him, -⟩ := s.slot_of_lt hn
  unfold writeByte
  rw [him]
  dsimp only
  split
  · simp
  · split
    · simp
    · simp
    · split <;> simp

/-- Every block of a well-formed image whose dimensions the factor divides can be read (R161). -/
theorem readBlocks_of_divisible {im : Image} (hwf : im.wf) {f : Word} (hw : mod32 im.width f = 0)
    (hh : mod32 im.height f = 0) :
    ∃ blocks, readBlocks im f.toNat (outCoords (div32 im.width f).toNat (div32 im.height f).toNat) =
      some blocks := by
  obtain ⟨blocks, hread, -⟩ := readBlocks_some im f.toNat
    (outCoords (div32 im.width f).toNat (div32 im.height f).toNat) (fun _ _ _ => True) (by
      intro x y hxy
      obtain ⟨hx, hy⟩ := mem_outCoords.1 hxy
      obtain ⟨block, hblock, -⟩ := readPixels_block hwf (div32_mul_of_mod32_eq_zero hw)
        (div32_mul_of_mod32_eq_zero hh) hx hy
      exact ⟨block, hblock, trivial⟩)
  exact ⟨blocks, hread⟩

theorem runPixelize_ne_fault (hwf : ∀ im ∈ s.img, im.wf) (hd : s.l.dst.toNat < s.nslot)
    (hn : s.l.src.toNat < s.nslot) (r : Fault) : runPixelize s ≠ .fault r := by
  obtain ⟨im, him, hmem⟩ := s.slot_of_lt hn
  unfold runPixelize
  rw [him]
  dsimp only
  split
  · simp
  · split
    · simp
    · rename_i hm
      rw [not_or, not_not, not_not] at hm
      obtain ⟨blocks, hblocks⟩ := readBlocks_of_divisible (hwf im hmem) hm.1 hm.2
      rw [hblocks]
      dsimp only
      split
      · exact State.commit_ne_fault (s := { s with acc := accsAfter s.acc blocks }) hd _ r
      · simp

/-- The latch of a command in progress names existing slots only, so its next step does not fault. -/
theorem State.Inv.exec_ne_fault (h : s.Inv) {i : Instr} (hr : s.running = some i) (r : Fault) :
    exec i s ≠ .fault r := by
  obtain ⟨hl, -, hdst, hsrc⟩ := h.latched i hr
  cases i with
  | new d =>
    have hd : s.l.dst.toNat < s.nslot := by rw [hdst]; exact of_decide_eq_true hl
    rw [exec_new_running hr]
    exact State.commit_ne_fault hd _ r
  | decode d =>
    have hd : s.l.dst.toNat < s.nslot := by rw [hdst]; exact of_decide_eq_true hl
    obtain ⟨hp | hp, -⟩ := State.running_decode.1 hr
    · rw [exec_decode_reading hr hp]
      exact readToken_ne_fault r
    · rw [exec_decode_parsing hr hp]
      exact runParse_ne_fault hd r
  | encode n =>
    have hn : s.l.src.toNat < s.nslot := by rw [hsrc]; exact of_decide_eq_true hl
    rw [exec_encode_running hr]
    exact writeByte_ne_fault hn r
  | pixelize d n =>
    simp only [Instr.legal, Bool.and_eq_true, decide_eq_true_eq] at hl
    obtain ⟨⟨hd, hn⟩, -⟩ := hl
    rw [exec_pixelize_running hr]
    exact runPixelize_ne_fault h.images (hdst ▸ hd) (hsrc ▸ hn) r

theorem State.Inv.unitStep_ne_fault (h : s.Inv) (r : Fault) : unitStep s ≠ .fault r := by
  cases hr : s.running with
  | none => simp [unitStep, hr]
  | some i => rw [unitStep_running hr]; exact h.exec_ne_fault hr r

/-- Settles O52: the host's steps never fault, and the unit's fault only where the latch names a missing slot or a
block leaves the source image. -/
theorem stepNeverFaults : Obligations.StepNeverFaults := by
  intro s h r
  unfold step
  split
  · unfold defaultStep
    split
    · exact h.unitStep_ne_fault r
    · exact hostStep_ne_fault r
  · rename_i a ts _
    have hturn : State.Inv { s with turns := ts } := h.of_invView rfl
    cases a with
    | host => exact hostStep_ne_fault r
    | unit => exact hturn.unitStep_ne_fault r
    | reset => simp [turnStep]

end Sys2Proof.Machine
end

section
/-! PROOFS. What one step can do to the phase, to the slots and to STATUS, from what each move can do to them (O53, O54,
O59, O60). -/

namespace Sys2Proof.Machine

variable {s t : State}

/-- Without a reset a step is an idle turn, or a move of the unit or of the host. -/
theorem step_next_of_notReset (hn : s.notReset) (h : step s = .next t) :
    (s.ph = .idle ∧ t = s.turnTaken) ∨ UnitMove s.turnTaken t ∨ HostMove s.turnTaken t := by
  obtain ⟨⟨ts, ht⟩, -⟩ | hmove := step_next h
  · exact absurd ht (hn ts)
  · exact hmove

/-! ### The phase -/

theorem UnitMove.ph_ne_idle (m : UnitMove s t) : s.ph ≠ .idle := by
  intro hidle
  cases m <;> simp_all

theorem UnitMove.phase (m : UnitMove s t) :
    t.ph = s.ph ∨ (s.ph = .decRead ∧ t.ph = .decParse) ∨ (t.ph = .idle ∧ t.status.done = true) := by
  cases m with
  | awaitToken | awaitSink | data | sent => exact .inl rfl
  | eos beat rest hp => exact .inr (.inl ⟨hp, rfl⟩)
  | _ => exact .inr (.inr ⟨rfl, rfl⟩)

theorem CmdMove.eq_drop_of_busy (m : CmdMove s t) (hp : s.ph ≠ .idle) : t = s.drop := by
  cases m with
  | issued i hidle => exact absurd hidle hp
  | illegal hidle => exact absurd hidle hp
  | dropped => rfl

theorem HostMove.ph_of_busy (m : HostMove s t) (hp : s.ph ≠ .idle) : t.ph = s.ph := by
  cases m with
  | nothing => rfl
  | command w rest _ _ m => rw [m.eq_drop_of_busy hp]; rfl
  | access => rfl

theorem firstPhase_ne_decParse (i : Instr) : firstPhase i ≠ .decParse := by
  cases i <;> simp [firstPhase]

theorem CmdMove.ph_ne_decParse (m : CmdMove s t) (hp : s.ph = .idle) : t.ph ≠ .decParse := by
  cases m with
  | issued i => exact firstPhase_ne_decParse i
  | illegal => simp
  | dropped hbusy => exact absurd hp hbusy

theorem HostMove.ph_ne_decParse (m : HostMove s t) (hp : s.ph = .idle) : t.ph ≠ .decParse := by
  cases m with
  | nothing => simp [hp]
  | command w rest _ _ m => exact m.ph_ne_decParse hp
  | access => simp [hp]

/-- Settles O53: an idle unit moves by the host's hand only, and a busy one by its own. -/
theorem phaseTransitions : Obligations.PhaseTransitions := by
  intro s t hn h
  obtain ⟨hp, rfl⟩ | m | m := step_next_of_notReset hn h
  · exact ⟨fun _ => by simp [hp], fun hbusy => absurd hp hbusy⟩
  · exact ⟨fun hp => absurd hp m.ph_ne_idle, fun _ => m.phase⟩
  · exact ⟨fun hp => m.ph_ne_decParse hp, fun hbusy => .inl (m.ph_of_busy hbusy)⟩

/-! ### The slots -/

/-- What the state after a commit of the latch's destination slot is, and when it comes (R25, R26, R209). -/
def State.Commits (s t : State) : Prop :=
  (∃ im, t.img = s.img.set s.l.dst.toNat im) ∧ (s.ph = .newRun ∨ s.ph = .decParse ∨ s.ph = .pixRun) ∧
  t.ph = .idle ∧ t.status.done = true

theorem UnitMove.img (m : UnitMove s t) : t.img = s.img ∨ s.Commits t := by
  cases m with
  | committedNew hp => exact .inr ⟨⟨_, rfl⟩, .inl hp, rfl, rfl⟩
  | committedDecode im hp => exact .inr ⟨⟨_, rfl⟩, .inr (.inl hp), rfl, rfl⟩
  | committedPixelize im blocks hp => exact .inr ⟨⟨_, rfl⟩, .inr (.inr hp), rfl, rfl⟩
  | _ => exact .inl rfl

theorem CmdMove.img (m : CmdMove s t) : t.img = s.img := by
  cases m <;> rfl

theorem HostMove.img (m : HostMove s t) : t.img = s.img := by
  cases m with
  | nothing => rfl
  | command w rest _ _ m => exact m.img
  | access => rfl

theorem State.Commits.eq_dst {n : Nat} (h : s.Commits t) (hne : t.img[n]? ≠ s.img[n]?) : n = s.l.dst.toNat := by
  obtain ⟨⟨im, himg⟩, -⟩ := h
  by_contra hn
  exact hne (by rw [himg, List.getElem?_set_ne (Ne.symm hn)])

/-- Settles O54: only the three commits change the slots, and a commit replaces one. -/
theorem slotChangesOnlyAtCommit : Obligations.SlotChangesOnlyAtCommit := by
  intro s t n hn h hne
  have same : t.img = s.img → s.Commits t := fun himg => absurd (by rw [himg]) hne
  have hcommit : s.Commits t := by
    obtain ⟨-, rfl⟩ | m | m := step_next_of_notReset hn h
    · exact same rfl
    · exact m.img.elim same id
    · exact same m.img
  have hdst : n = s.l.dst.toNat := hcommit.eq_dst hne
  obtain ⟨-, hph, hidle, hdone⟩ := hcommit
  exact ⟨hdst, hph, hidle, hdone⟩

/-! ### OVR -/

theorem UnitMove.ovr (m : UnitMove s t) : t.status.ovr = s.status.ovr := by
  cases m <;> rfl

theorem CmdMove.ovr (m : CmdMove s t) :
    t.status.ovr = s.status.ovr ∨ (t.status.ovr = true ∧ s.ph ≠ .idle) := by
  cases m with
  | issued => exact .inl rfl
  | illegal => exact .inl rfl
  | dropped hbusy => exact .inr ⟨rfl, hbusy⟩

theorem HostMove.ovr (m : HostMove s t) :
    t.status.ovr = s.status.ovr ∨
    (t.status.ovr = true ∧ s.ph ≠ .idle ∧ ∃ w rest, s.hostq = .write 0x00 w :: rest) := by
  cases m with
  | nothing => exact .inl rfl
  | command w rest _ hq m => exact m.ovr.imp_right fun ⟨hovr, hbusy⟩ => ⟨hovr, hbusy, w, rest, hq⟩
  | access => exact .inl rfl

/-- But for reset, a step leaves OVR as it is, or sets it because a CMD write found the unit busy (R37). -/
theorem step_ovr (hn : s.notReset) (h : step s = .next t) :
    t.status.ovr = s.status.ovr ∨
    (t.status.ovr = true ∧ s.ph ≠ .idle ∧ ∃ w rest, s.hostq = .write 0x00 w :: rest) := by
  obtain ⟨-, rfl⟩ | m | m := step_next_of_notReset hn h
  · exact .inl rfl
  · exact .inl m.ovr
  · exact m.ovr

theorem step_writeCmd_busy {w : Word} {rest : List HostOp} {ts : List Turn} (ht : s.turns = .host :: ts)
    (hq : s.hostq = .write 0x00 w :: rest) (hp : s.ph ≠ .idle) :
    step s = .next (State.drop { s with turns := ts, hostq := rest }) := by
  rw [step_writeCmd ht hq]
  exact writeCmd_busy w hp

/-- Settles O59: OVR is kept or set by a dropped word, and a dropped word sets it. -/
theorem overrunSticky : Obligations.OverrunSticky := by
  intro s t hn h
  refine ⟨fun hset => ?_, fun hclear hset => ?_, fun w rest ts ht hq hp => ?_⟩
  · obtain hsame | ⟨hovr, -⟩ := step_ovr hn h
    · exact hsame.trans hset
    · exact hovr
  · obtain hsame | ⟨-, hbusy, hword⟩ := step_ovr hn h
    · rw [hset, hclear] at hsame; cases hsame
    · exact ⟨hbusy, hword⟩
  · rw [step_writeCmd_busy ht hq hp] at h
    cases h; rfl

/-! ### The outcome -/

theorem HostMove.keeps_status (m : HostMove s t) (hq : ∀ w rest, s.hostq ≠ .write 0x00 w :: rest) :
    t.status = s.status ∧ t.ph = s.ph := by
  cases m with
  | nothing => exact ⟨rfl, rfl⟩
  | command w rest _ hcmd => exact absurd hcmd (hq w rest)
  | access => exact ⟨rfl, rfl⟩

/-- Settles O60: the unit of an idle state has no move, and the host's other accesses reach ARG0 and ARG1 only. -/
theorem outcomeKept : Obligations.OutcomeKept := by
  intro s t hn h hp hq
  obtain ⟨-, rfl⟩ | m | m := step_next_of_notReset hn h
  · exact ⟨rfl, hp⟩
  · exact absurd hp m.ph_ne_idle
  · obtain ⟨hstatus, hph⟩ := m.keeps_status hq
    exact ⟨hstatus, hph.trans hp⟩

end Sys2Proof.Machine
end

section
/-! PROOFS. The outside of the unit (spec/20_memory.md): a placed command word runs (O12), a finite store a run would
exceed refuses it (O18), and tokens and bytes cross the two ports one at a time and in order (O56, O57). -/

namespace Sys2Proof.Machine

variable {s t : State}

/-! ### A placed command word -/

/-- The number of a command word, read as an opcode-table word, is the word. -/
theorem tableWord_toNat (w : Word) : tableWord 32 w.toNat = w := by
  rw [tableWord, Nat.mod_eq_of_lt w.isLt, BitVec.ofNat_toNat, BitVec.setWidth_eq]

/-- Settles O12: the placed word is a CMD write at the head of an idle unit's host queue, on the host's turn. -/
theorem placedWordRuns : Obligations.PlacedWordRuns := by
  intro s w i hd
  rw [State.withFetchWord, tableWord_toNat]
  exact (stepRunsWrittenCommand (s.placeCommand w) w i s.hostq rfl rfl hd).1 s.turns rfl

/-! ### The capacities -/

theorem within_eq_false {cap : Option Nat} {c n : Nat} (hcap : cap = some c) (h : c < n) : within cap n = false := by
  rw [hcap]
  exact decide_eq_false (Nat.not_le.2 h)

theorem State.commit_exceeding {d : SlotIdx} {im : Image} {cap : Nat} (hd : d.toNat < s.nslot)
    (hcap : s.caps.pixcap = some cap) (hover : cap < im.pixels.length) : s.commit d im = .refused .pixcapExceeded :=
  State.commit_refused.2 ⟨hd, within_eq_false hcap hover, rfl⟩

theorem newImage_pixels_length (w h : Word) : (newImage w h).pixels.length = w.toNat * h.toNat :=
  newImage_wf w h

theorem readToken_exceeding {b : Byte} {rest : List Beat} {cap : Nat} (hbeats : s.beats = ⟨0, b⟩ :: rest)
    (hcap : s.caps.ibufcap = some cap) (hfull : cap ≤ s.ibuf.length) :
    readToken s = .refused .ibufcapExceeded := by
  have hover : within s.caps.ibufcap (s.ibuf.length + 1) = false := within_eq_false hcap (Nat.lt_succ_of_le hfull)
  simp [readToken, hbeats, Beat.token, hover]

theorem runParse_image {im : Image} (himg : parseFrame s.ibuf = .image im) :
    runParse s = s.emptyBuffer.commit s.l.dst im := by
  rw [runParse, himg]

/-! ### A PIXELIZE whose factor divides and whose block sums fit -/

theorem mod32_eq_zero_of_mul {a f : Word} {q : Nat} (h : q * f.toNat = a.toNat) : mod32 a f = 0 := by
  apply BitVec.eq_of_toNat_eq
  rw [mod32, BitVec.toNat_umod, ← h, Nat.mul_mod_left]
  rfl

theorem div32_toNat_of_mul {a f : Word} {q : Nat} (hf : f.toNat ≠ 0) (h : q * f.toNat = a.toNat) :
    (div32 a f).toNat = q := by
  rw [div32, BitVec.toNat_udiv, ← h, Nat.mul_div_cancel _ (Nat.pos_of_ne_zero hf)]

/-- Every channel's exact sum over the block of output pixel `(x, y)` is below 2^64 (R170). -/
def Image.blockFits (im : Image) (f x y : Nat) : Prop :=
  im.blockTotal f (·.r) x y < 2 ^ 64 ∧ im.blockTotal f (·.g) x y < 2 ^ 64 ∧
  im.blockTotal f (·.b) x y < 2 ^ 64 ∧ im.blockTotal f (·.a) x y < 2 ^ 64

theorem sumsFit_of_blockFits {im : Image} {f x y : Nat} {block : List Pixel}
    (hsum : ∀ c, exactSum c block = im.blockTotal f c x y) (hfit : im.blockFits f x y) : sumsFit block = true := by
  obtain ⟨hr, hg, hb, ha⟩ := hfit
  simp only [sumsFit, hsum, hr, hg, hb, ha, decide_true, Bool.and_self]

/-- The blocks of a well-formed image are read whole, each with the image's own totals, and so they fit where those do
(R159, R161, R170). -/
theorem readBlocks_fit {im : Image} (hwf : im.wf) {f nw nh : Nat} (hw : nw * f = im.width.toNat)
    (hh : nh * f = im.height.toNat) (hfit : ∀ x y, x < nw → y < nh → im.blockFits f x y) :
    ∃ blocks, readBlocks im f (outCoords nw nh) = some blocks ∧ blocks.all sumsFit = true ∧
      List.Forall₂ (fun block (xy : Nat × Nat) => ∀ c, exactSum c block = im.blockTotal f c xy.1 xy.2)
        blocks (outCoords nw nh) := by
  obtain ⟨blocks, hread, hblocks⟩ := readBlocks_some im f (outCoords nw nh)
    (fun block x y => sumsFit block = true ∧ ∀ c, exactSum c block = im.blockTotal f c x y) (by
      intro x y hxy
      obtain ⟨hx, hy⟩ := mem_outCoords.1 hxy
      obtain ⟨block, hblock, -, hsum⟩ := readPixels_block hwf hw hh hx hy
      exact ⟨block, hblock, sumsFit_of_blockFits hsum (hfit x y hx hy), hsum⟩)
  obtain ⟨hall, htotals⟩ := (List.forall₂_and_left _ _).1 hblocks
  exact ⟨blocks, hread, List.all_eq_true.2 hall, htotals⟩

/-- A PIXELIZE whose factor divides and whose sums fit goes to the commit of one average per block (R155, R163). -/
theorem runPixelize_of_fit {im : Image} {nw nh : Nat} {blocks : List (List Pixel)} (hslot : s.slot s.l.src = some im)
    (hf : s.l.a0.toNat ≠ 0) (hw : nw * s.l.a0.toNat = im.width.toNat) (hh : nh * s.l.a0.toNat = im.height.toNat)
    (hread : readBlocks im s.l.a0.toNat (outCoords nw nh) = some blocks) (hfit : blocks.all sumsFit = true) :
    runPixelize s = State.commit { s with acc := accsAfter s.acc blocks } s.l.dst
      ⟨div32 im.width s.l.a0, div32 im.height s.l.a0, blocks.map (averagePixel (mul64 s.l.a0 s.l.a0))⟩ := by
  have hz : s.l.a0 ≠ 0 := fun h => hf (congrArg BitVec.toNat h)
  have hmod : ¬ (mod32 im.width s.l.a0 ≠ 0 ∨ mod32 im.height s.l.a0 ≠ 0) :=
    not_or.2 ⟨not_not.2 (mod32_eq_zero_of_mul hw), not_not.2 (mod32_eq_zero_of_mul hh)⟩
  rw [← div32_toNat_of_mul hf hw, ← div32_toNat_of_mul hf hh] at hread
  simp only [runPixelize, hslot, if_neg hz, if_neg hmod, hread, hfit, if_true]

theorem runPixelize_exceeding {im : Image} {nw nh cap : Nat} (hd : s.l.dst.toNat < s.nslot)
    (hslot : s.slot s.l.src = some im) (hwf : im.wf) (hf : s.l.a0.toNat ≠ 0)
    (hw : nw * s.l.a0.toNat = im.width.toNat) (hh : nh * s.l.a0.toNat = im.height.toNat)
    (hfit : ∀ x y, x < nw → y < nh → im.blockFits s.l.a0.toNat x y) (hcap : s.caps.pixcap = some cap)
    (hover : cap < nw * nh) : runPixelize s = .refused .pixcapExceeded := by
  obtain ⟨blocks, hread, hsums, -⟩ := readBlocks_fit hwf hw hh hfit
  rw [runPixelize_of_fit hslot hf hw hh hread hsums]
  refine State.commit_exceeding (s := { s with acc := accsAfter s.acc blocks }) hd hcap ?_
  rwa [List.length_map, readBlocks_length hread, outCoords_length]

/-- Settles O18: the three commits look at PIXCAP, and a DATA token at IBUFCAP. -/
theorem capacityExceededRefused : Obligations.CapacityExceededRefused := by
  refine ⟨fun s d cap hr hd hcap hover => ?_, fun s d cap b rest hr hp hbeats hcap hfull => ?_,
    fun s d cap im hr hp hd himg hcap hover => ?_,
    fun s d n cap im f nw nh hr hd hslot hwf hf hf0 hw hh hfit hcap hover => ?_⟩
  · obtain ⟨-, rfl⟩ := State.running_new.1 hr
    rw [exec_new_running hr]
    exact State.commit_exceeding hd hcap (by rwa [newImage_pixels_length])
  · rw [exec_decode_reading hr hp]
    exact readToken_exceeding hbeats hcap hfull
  · obtain ⟨-, rfl⟩ := State.running_decode.1 hr
    rw [exec_decode_parsing hr hp, runParse_image himg]
    exact State.commit_exceeding (s := s.emptyBuffer) hd hcap hover
  · obtain ⟨-, rfl, rfl⟩ := State.running_pixelize.1 hr
    subst hf
    rw [exec_pixelize_running hr]
    exact runPixelize_exceeding hd hslot hwf hf0 hw hh hfit hcap hover

/-! ### The input port -/

theorem State.inReady_iff : s.inReady = true ↔ s.ph = .decRead :=
  beq_iff_eq

/-- The tokens offered stay as they are, or the first of them is consumed, in DEC_READ (R63). -/
def State.Consumes (s t : State) : Prop :=
  t.beats = s.beats ∨ (s.ph = .decRead ∧ ∃ b, s.beats = b :: t.beats)

theorem UnitMove.consumes (m : UnitMove s t) : s.Consumes t := by
  cases m with
  | data b beat rest hp hbeats => exact .inr ⟨hp, beat, hbeats⟩
  | eos beat rest hp hbeats => exact .inr ⟨hp, beat, hbeats⟩
  | readError beat rest hp hbeats => exact .inr ⟨hp, beat, hbeats⟩
  | _ => exact .inl rfl

theorem CmdMove.beats (m : CmdMove s t) : t.beats = s.beats := by
  cases m <;> rfl

theorem HostMove.beats (m : HostMove s t) : t.beats = s.beats := by
  cases m with
  | nothing => rfl
  | command w rest _ _ m => exact m.beats
  | access => rfl

/-- Settles O56: of all moves only the unit's three on a token change what the source offers. -/
theorem tokensConsumedOnlyInDecRead : Obligations.TokensConsumedOnlyInDecRead := by
  intro s t
  refine ⟨State.inReady_iff, fun h => ?_⟩
  obtain ⟨-, rfl⟩ | ⟨-, rfl⟩ | m | m := step_next h
  · exact .inl rfl
  · exact .inl rfl
  · exact m.consumes
  · exact .inl m.beats

/-! ### The output port -/

theorem State.outValid_iff : s.outValid = true ↔ s.ph = .encWrite :=
  beq_iff_eq

theorem State.outData_of_encWrite {im : Image} (hp : s.ph = .encWrite) (hslot : s.slot s.l.src = some im) :
    s.outData = (encStream im)[s.opos]? := by
  rw [State.outData, if_pos (State.outValid_iff.2 hp), hslot]
  rfl

/-- The bytes accepted stay as they are, or the byte on the port joins them, in ENC_WRITE, and OPOS counts it
(R64, R65). -/
def State.Emits (s t : State) : Prop :=
  t.sink.taken = s.sink.taken ∨
  (s.ph = .encWrite ∧ ∃ b, s.outData = some b ∧ t.sink.taken = s.sink.taken ++ [b] ∧ t.opos = s.opos + 1)

/-- A byte the sink answers OK to, whether or not it is the last. -/
theorem State.emits_of_accepted {im : Image} {b : Byte} {k : Sink} (hp : s.ph = .encWrite)
    (hslot : s.slot s.l.src = some im) (hbyte : (encStream im)[s.opos]? = some b)
    (hsink : s.sink.next = some (.ok, k)) (htaken : t.sink.taken = k.taken ++ [b]) (hopos : t.opos = s.opos + 1) :
    s.Emits t :=
  .inr ⟨hp, b, (State.outData_of_encWrite hp hslot).trans hbyte, by rw [htaken, Sink.next_taken hsink], hopos⟩

theorem UnitMove.emits (m : UnitMove s t) : s.Emits t := by
  cases m with
  | sent im b k hp hslot hbyte hsink => exact State.emits_of_accepted hp hslot hbyte hsink rfl rfl
  | sentLast im b k hp hslot hbyte hsink => exact State.emits_of_accepted hp hslot hbyte hsink rfl rfl
  | sinkError im b k hp hslot hbyte hsink => exact .inl (Sink.next_taken hsink)
  | _ => exact .inl rfl

theorem CmdMove.taken (m : CmdMove s t) : t.sink.taken = s.sink.taken := by
  cases m with
  | issued i => cases i <;> rfl
  | illegal => rfl
  | dropped => rfl

theorem HostMove.taken (m : HostMove s t) : t.sink.taken = s.sink.taken := by
  cases m with
  | nothing => rfl
  | command w rest _ _ m => exact m.taken
  | access => rfl

/-- Settles O57: of all moves only the unit's two on an accepted byte change what the sink has taken. -/
theorem bytesLeaveInOrder : Obligations.BytesLeaveInOrder := by
  intro s t
  refine ⟨State.outValid_iff, fun h => ?_⟩
  obtain ⟨-, rfl⟩ | ⟨-, rfl⟩ | m | m := step_next h
  · exact .inl rfl
  · exact .inl rfl
  · exact m.emits
  · exact .inl m.taken

end Sys2Proof.Machine
end

section
/-! PROOFS. The command word as its fields (R81 to R83): decoding undoes encoding (O1), the legal words (O3), the chunk
of a pixel (O5), and the word of a mnemonic as a sum (O6). -/

namespace Sys2Proof.Machine

/-! ### Encoding and decoding -/

/-- The word of a command, field by field (R81, R82). -/
theorem encode_eq_iff (i : Instr) (w : Word) :
    encode i = w ↔
      w.extractLsb' 16 16 = 0 ∧ wordSrc w = i.srcField ∧ wordDst w = i.dstField ∧ wordOpc w = i.opc := by
  conv_lhs => rw [← word_eq_fields w, encode, eq_comm]
  exact fields_inj

/-- A word with a nonzero reserved bit selects no row (R83, R89). -/
theorem decode_eq_none_of_reserved {w : Word} (h : w.extractLsb' 16 16 ≠ 0) : decode w = none := by
  rw [decode, if_neg fun hs => h ((rowNew_selects_iff w).1 hs).1,
    if_neg fun hs => h ((rowDecode_selects_iff w).1 hs).1,
    if_neg fun hs => h ((rowEncode_selects_iff w).1 hs).1,
    if_neg fun hs => h ((rowPixelize_selects_iff w).1 hs).1]

theorem reserved_of_decode {w : Word} {i : Instr} (h : decode w = some i) : w.extractLsb' 16 16 = 0 := by
  by_contra hres
  rw [decode_eq_none_of_reserved hres] at h
  cases h

/-- A command is read from a word that holds its fields: the word selects the command's row and, its operation code
being another, no row before it. -/
theorem decode_of_fields {w : Word} {i : Instr} (hres : w.extractLsb' 16 16 = 0) (hsrc : wordSrc w = i.srcField)
    (hdst : wordDst w = i.dstField) (hopc : wordOpc w = i.opc) : decode w = some i := by
  simp only [decode, rowNew_selects_iff, rowDecode_selects_iff, rowEncode_selects_iff, rowPixelize_selects_iff,
    hres, hsrc, hdst, hopc]
  cases i <;> simp [Instr.opc, Instr.srcField, Instr.dstField]

/-- Settles O1: both sides say that the word holds the command's fields and no reserved bit. -/
theorem decodeIffEncode : Obligations.DecodeIffEncode := by
  intro w i
  rw [encode_eq_iff]
  constructor
  · intro h
    obtain ⟨hopc, hdst, hsrc⟩ := fields_of_decode h
    exact ⟨reserved_of_decode h, hsrc, hdst, hopc⟩
  · rintro ⟨hres, hsrc, hdst, hopc⟩
    exact decode_of_fields hres hsrc hdst hopc

/-! ### Legal words -/

theorem decodeLegal_isSome_iff {n : Nat} {w : Word} :
    (decodeLegal n w).isSome = true ↔ ∃ i, decode w = some i ∧ i.legal n = true :=
  Option.isSome_iff_exists.trans (exists_congr fun _ => Option.filter_eq_some_iff)

/-- Settles O3: a legal word holds the fields of a legal command, which is, by its operation code, one of four. -/
theorem legalWordConditions : Obligations.LegalWordConditions := by
  intro n w
  rw [decodeLegal_isSome_iff]
  constructor
  · rintro ⟨i, hd, hl⟩
    obtain ⟨hopc, hdst, hsrc⟩ := fields_of_decode hd
    rw [hopc, hdst, hsrc]
    refine ⟨reserved_of_decode hd, ?_⟩
    cases i <;> simpa [Instr.opc, Instr.srcField, Instr.dstField, Instr.legal, and_assoc] using hl
  · rintro ⟨hres, h1 | h2 | h3 | h4, hsrc, hdst, hdstLt, hsrcLt, hne⟩
    · exact ⟨.new (wordDst w), decode_of_fields hres (hsrc (.inl h1)) rfl h1, decide_eq_true (hdstLt (.inl h1))⟩
    · exact ⟨.decode (wordDst w), decode_of_fields hres (hsrc (.inr h2)) rfl h2,
        decide_eq_true (hdstLt (.inr (.inl h2)))⟩
    · exact ⟨.encode (wordSrc w), decode_of_fields hres rfl (hdst h3) h3, decide_eq_true (hsrcLt (.inl h3))⟩
    · refine ⟨.pixelize (wordDst w) (wordSrc w), decode_of_fields hres rfl rfl h4, ?_⟩
      simp [Instr.legal, hdstLt (.inr (.inr h4)), hsrcLt (.inr h4), hne h4]

/-! ### Pixels and chunks -/

/-- `enc16(be16(b0, b1)) = [b0, b1]` (R15). -/
theorem enc16_be16 (b0 b1 : Byte) : enc16 (be16 b0 b1) = [b0, b1] := by
  have hnat := toNat_be16 b0 b1
  have hlt := b1.isLt
  have hhigh : (be16 b0 b1).extractLsb' 8 8 = b0 := by
    apply BitVec.eq_of_toNat_eq
    rw [toNat_extractTopByte]
    omega
  have hlow : (be16 b0 b1).extractLsb' 0 8 = b1 := by
    apply BitVec.eq_of_toNat_eq
    rw [toNat_extractLowByte]
    omega
  rw [enc16, hhigh, hlow]

/-- The chunk of a pixel reads back as the pixel (R86). -/
theorem pixelAt_toChunk (p : Pixel) : pixelAt p.toChunk 0 = p := by
  calc pixelAt p.toChunk 0
      = ⟨be16 (p.r.extractLsb' 8 8) (p.r.extractLsb' 0 8), be16 (p.g.extractLsb' 8 8) (p.g.extractLsb' 0 8),
         be16 (p.b.extractLsb' 8 8) (p.b.extractLsb' 0 8), be16 (p.a.extractLsb' 8 8) (p.a.extractLsb' 0 8)⟩ := rfl
    _ = p := by rw [be16_extractBytes, be16_extractBytes, be16_extractBytes, be16_extractBytes]

/-- Eight bytes are the chunk of the pixel they read as (R86). -/
theorem toChunk_pixelAt (b0 b1 b2 b3 b4 b5 b6 b7 : Byte) :
    (pixelAt [b0, b1, b2, b3, b4, b5, b6, b7] 0).toChunk = [b0, b1, b2, b3, b4, b5, b6, b7] := by
  calc (pixelAt [b0, b1, b2, b3, b4, b5, b6, b7] 0).toChunk
      = enc16 (be16 b0 b1) ++ enc16 (be16 b2 b3) ++ enc16 (be16 b4 b5) ++ enc16 (be16 b6 b7) := rfl
    _ = [b0, b1, b2, b3, b4, b5, b6, b7] := by rw [enc16_be16, enc16_be16, enc16_be16, enc16_be16]; rfl

/-- Settles O5: each channel is two bytes, and `be16` and `enc16` undo each other. -/
theorem chunkBijection : Obligations.ChunkBijection := by
  refine ⟨fun p => ⟨p.toChunk_length, pixelAt_toChunk p⟩, fun c hc => ?_⟩
  match c, hc with
  | [b0, b1, b2, b3, b4, b5, b6, b7], _ => exact toChunk_pixelAt b0 b1 b2 b3 b4 b5 b6 b7

/-! ### Mnemonics -/

/-- Appending a slot index below a bit vector: the number it extends moves up by one base-16 digit. -/
theorem toNat_append_slotIdx {n : Nat} (x : BitVec n) (d : SlotIdx) : (x ++ d).toNat = x.toNat * 16 + d.toNat := by
  rw [BitVec.toNat_append, ← Nat.shiftLeft_add_eq_or_of_lt d.isLt, Nat.shiftLeft_eq]

/-- The word of a command as the sum of its fields, each at its place value: the form R92 gives it. -/
theorem encode_eq_sum (i : Instr) :
    encode i = i.opc.setWidth 32 + 0x100 * i.dstField.setWidth 32 + 0x1000 * i.srcField.setWidth 32 := by
  apply BitVec.eq_of_toNat_eq
  rw [encode, toNat_append_byte, toNat_append_slotIdx, toNat_append_slotIdx]
  have ho := i.opc.isLt
  have hd := i.dstField.isLt
  have hs := i.srcField.isLt
  simp only [BitVec.toNat_add, BitVec.toNat_mul, BitVec.toNat_setWidth, BitVec.ofNat_eq_ofNat, BitVec.toNat_ofNat]
  omega

/-- Settles O6: the sum a mnemonic writes is the command's word, an unused field adding 0. -/
theorem mnemonicExpansions : Obligations.MnemonicExpansions := by
  intro d n w h f
  simp [encode_eq_sum, Stmt.expand, Instr.opc, Instr.dstField, Instr.srcField]

end Sys2Proof.Machine
end

section
/-! PROOFS. NEW, the image constructor (spec/40_image_new.md): what its commit puts in the slot (O17). -/

namespace Sys2Proof.Machine

/-- The image of a NEW, its pixel count the product of the naturals (R111). -/
theorem newImage_eq (w h : Word) :
    newImage w h = ⟨w, h, List.replicate (w.toNat * h.toNat) ⟨0, 0, 0, 65535⟩⟩ := by
  rw [newImage, mul64_toNat, Pixel.opaqueBlack]

/-- Settles O17: a NEW in progress commits its image to the latch's slot, which exists and which the image fits. -/
theorem newCommitsOpaqueBlack : Obligations.NewCommitsOpaqueBlack := by
  intro s d hr hd hfit
  obtain ⟨-, rfl⟩ := State.running_new.1 hr
  rw [exec_new_running hr, ← newImage_eq]
  exact State.commit_next.2 ⟨hd, by rwa [newImage_pixels_length], rfl⟩

end Sys2Proof.Machine
end

section
/-! PROOFS. The frame parser of DEC_PARSE (spec/41_codec_decode.md): what it answers, branch by branch; what it reads of
its buffer and of an encode stream (O26); and what DECODE answers at an ERR token (O20) and at the parse (O21, O22, O24,
O25). -/

namespace Sys2Proof.Machine

/-! ### What the parser answers -/

/-- `pix_num`, the number of pixels the header of a buffer declares (R120). -/
def declaredPixels (buf : List Byte) : Nat := (field32 buf 8).toNat * (field32 buf 12).toNat

/-- The image of a buffer that is long enough for the pixels it declares (R128, R130). -/
def frameImage (buf : List Byte) : Image :=
  ⟨field32 buf 8, field32 buf 12, (List.range (declaredPixels buf)).map fun i => pixelAt buf (16 + 8 * i)⟩

theorem frameImage_pixels_length (buf : List Byte) : (frameImage buf).pixels.length = declaredPixels buf := by
  simp [frameImage]

theorem frameImage_getElem?_eq_some {buf : List Byte} {i : Nat} {p : Pixel} :
    (frameImage buf).pixels[i]? = some p ↔ i < declaredPixels buf ∧ pixelAt buf (16 + 8 * i) = p := by
  simp [frameImage, List.getElem?_eq_some_iff]

theorem parseFrame_short {buf : List Byte} (hlen : buf.length < 16) : parseFrame buf = .error .headerToShort :=
  if_pos hlen

theorem parseFrame_wrongMagic {buf : List Byte} (hlen : 16 ≤ buf.length) (hmagic : buf.take 8 ≠ magic) :
    parseFrame buf = .error .farbfeldPatternNotFound := by
  rw [parseFrame, if_neg (Nat.not_lt.2 hlen), if_pos hmagic]

/-- A buffer as long as its header and its declared pixels parses, whatever follows them (R128, R129). -/
theorem parseFrame_complete {buf : List Byte} (hmagic : buf.take 8 = magic)
    (hlen : 16 + 8 * declaredPixels buf ≤ buf.length) : parseFrame buf = .image (frameImage buf) := by
  have hheader : ¬ buf.length < 16 := by omega
  have hchunks : ¬ (buf.length - 16) / 8 < declaredPixels buf := by omega
  simp only [parseFrame, mul64_toNat]
  rw [if_neg hheader, if_neg (not_not.2 hmagic)]
  exact if_neg hchunks

/-! ### A pixel of a buffer depends on its own chunk only -/

/-- The 8 bytes at offset `o` of a buffer (R86). -/
def chunkAt (buf : List Byte) (o : Nat) : List Byte := (buf.drop o).take 8

theorem byteAt_chunkAt (buf : List Byte) (o : Nat) {j : Nat} (hj : j < 8) :
    byteAt (chunkAt buf o) j = byteAt buf (o + j) := by
  simp [byteAt, chunkAt, List.getD_eq_getElem?_getD, hj]

theorem pixelAt_chunkAt (buf : List Byte) (o : Nat) : pixelAt (chunkAt buf o) 0 = pixelAt buf o := by
  simp [pixelAt, field16, byteAt_chunkAt, Nat.add_assoc]

/-- A pixel read in range has the bytes it was read from as its chunk (R86). -/
theorem toChunk_pixelAt_of_le {buf : List Byte} {o : Nat} (ho : o + 8 ≤ buf.length) :
    (pixelAt buf o).toChunk = chunkAt buf o := by
  have hlen : (chunkAt buf o).length = 8 := by rw [chunkAt, List.length_take, List.length_drop]; omega
  rw [← pixelAt_chunkAt]
  exact chunkBijection.2 _ hlen

theorem chunkAt_append {buf : List Byte} (extra : List Byte) {o : Nat} (ho : o + 8 ≤ buf.length) :
    chunkAt (buf ++ extra) o = chunkAt buf o := by
  rw [chunkAt, chunkAt, List.drop_append_of_le_length (by omega),
    List.take_append_of_le_length (by rw [List.length_drop]; omega)]

theorem pixelAt_append {buf : List Byte} (extra : List Byte) {o : Nat} (ho : o + 8 ≤ buf.length) :
    pixelAt (buf ++ extra) o = pixelAt buf o := by
  rw [← pixelAt_chunkAt, chunkAt_append extra ho, pixelAt_chunkAt]

theorem field32_append {buf : List Byte} (extra : List Byte) {o : Nat} (ho : o + 4 ≤ buf.length) :
    field32 (buf ++ extra) o = field32 buf o := by
  have hbyte : ∀ j, j < o + 4 → byteAt (buf ++ extra) j = byteAt buf j :=
    fun j hj => List.getD_append _ _ _ _ (by omega)
  rw [field32, hbyte o (by omega), hbyte (o + 1) (by omega), hbyte (o + 2) (by omega), hbyte (o + 3) (by omega),
    field32]

/-! ### The parser undoes the serializer -/

theorem encStream_width (im : Image) : field32 (encStream im) 8 = im.width :=
  be32_extractBytes im.width

theorem encStream_height (im : Image) : field32 (encStream im) 12 = im.height :=
  be32_extractBytes im.height

/-- The chunk of pixel `i` is at offset `16 + 8i` of an encode stream (R144). -/
theorem chunkAt_encStream {im : Image} {i : Nat} {p : Pixel} (hp : im.pixels[i]? = some p) :
    chunkAt (encStream im) (16 + 8 * i) = p.toChunk := by
  apply List.ext_getElem?
  intro j
  rw [chunkAt]
  by_cases hj : j < 8
  · have hpixel : im.pixels[(8 * i + j) / 8]? = some p := by rwa [show (8 * i + j) / 8 = i by omega]
    rw [List.getElem?_take_of_lt hj, List.getElem?_drop, Nat.add_assoc, encStream_getElem?_pixel hpixel,
      show (8 * i + j) % 8 = j by omega]
  · rw [List.getElem?_take_eq_none (by omega), List.getElem?_eq_none (by rw [p.toChunk_length]; omega)]

theorem pixelAt_encStream {im : Image} {i : Nat} {p : Pixel} (hp : im.pixels[i]? = some p) :
    pixelAt (encStream im) (16 + 8 * i) = p := by
  rw [← pixelAt_chunkAt, chunkAt_encStream hp, pixelAt_toChunk]

theorem declaredPixels_encStream {im : Image} (hwf : im.wf) : declaredPixels (encStream im) = im.pixels.length := by
  rw [declaredPixels, encStream_width, encStream_height, hwf]

theorem frameImage_encStream {im : Image} (hwf : im.wf) : frameImage (encStream im) = im := by
  have hpixels : (frameImage (encStream im)).pixels = im.pixels := by
    apply List.ext_getElem
    · rw [frameImage_pixels_length, declaredPixels_encStream hwf]
    · intro i hframe hi
      obtain ⟨-, hpixel⟩ := frameImage_getElem?_eq_some.1 (List.getElem?_eq_getElem hframe)
      rw [← hpixel]
      exact pixelAt_encStream (List.getElem?_eq_getElem hi)
  calc frameImage (encStream im)
      = ⟨field32 (encStream im) 8, field32 (encStream im) 12, (frameImage (encStream im)).pixels⟩ := rfl
    _ = im := by rw [encStream_width, encStream_height, hpixels]

/-- Settles O26: an encode stream has the magic and exactly the bytes its header declares, each field and each chunk
reading back as what it was written from. -/
theorem parseUndoesSerialize : Obligations.ParseUndoesSerialize := by
  intro im hwf
  have hlen : 16 + 8 * declaredPixels (encStream im) ≤ (encStream im).length := by
    rw [declaredPixels_encStream hwf, encStream_length]
  rw [parseFrame_complete rfl hlen, frameImage_encStream hwf]

/-! ### Bytes after the declared pixels -/

theorem declaredPixels_append {buf : List Byte} (extra : List Byte) (hlen : 16 ≤ buf.length) :
    declaredPixels (buf ++ extra) = declaredPixels buf := by
  rw [declaredPixels, field32_append extra (by omega), field32_append extra (by omega), declaredPixels]

theorem frameImage_append {buf : List Byte} (extra : List Byte) (hlen : 16 + 8 * declaredPixels buf ≤ buf.length) :
    frameImage (buf ++ extra) = frameImage buf := by
  have hpixels : (List.range (declaredPixels buf)).map (fun i => pixelAt (buf ++ extra) (16 + 8 * i)) =
      (List.range (declaredPixels buf)).map fun i => pixelAt buf (16 + 8 * i) := by
    refine List.map_congr_left fun i hi => pixelAt_append extra ?_
    have : i < declaredPixels buf := List.mem_range.1 hi
    omega
  rw [frameImage, field32_append extra (by omega), field32_append extra (by omega),
    declaredPixels_append extra (by omega), hpixels, frameImage]

/-- Once the declared pixels are there, the answer of the parser is settled (R129). -/
theorem parseFrame_append {buf : List Byte} (extra : List Byte) (hlen : 16 + 8 * declaredPixels buf ≤ buf.length) :
    parseFrame (buf ++ extra) = parseFrame buf := by
  have hlong : (buf ++ extra).length = buf.length + extra.length := List.length_append
  have htake : (buf ++ extra).take 8 = buf.take 8 := List.take_append_of_le_length (by omega)
  have hnum := declaredPixels_append extra (show 16 ≤ buf.length by omega)
  by_cases hmagic : buf.take 8 = magic
  · rw [parseFrame_complete hmagic hlen, parseFrame_complete (htake.trans hmagic) (by omega),
      frameImage_append extra hlen]
  · rw [parseFrame_wrongMagic (by omega) hmagic, parseFrame_wrongMagic (by omega) (htake ▸ hmagic)]

/-! ### DECODE at an ERR token, and at the parse -/

variable {s : State}

/-- Settles O20: the token at the head of the queue is ERR. -/
theorem decodeReadErrorIsIo : Obligations.DecodeReadErrorIsIo := by
  intro s d b t hr hp hbeats
  have herr : Beat.token ⟨2, b⟩ = some .err := rfl
  rw [exec_decode_reading hr hp]
  simp only [readToken, hbeats, herr]
  rfl

theorem runParse_error {k : ErrKind} (herr : parseFrame s.ibuf = .error k) :
    runParse s = .next (s.fail k).emptyBuffer := by
  rw [runParse, herr]

/-- Settles O21: the parser's first test. -/
theorem decodeHeaderToShort : Obligations.DecodeHeaderToShort := by
  intro s d hr hp hlen
  rw [exec_decode_parsing hr hp]
  exact runParse_error (parseFrame_short hlen)

/-- Settles O22: the parser's second test. -/
theorem decodePatternNotFound : Obligations.DecodePatternNotFound := by
  intro s d hr hp hlen hmagic
  rw [exec_decode_parsing hr hp]
  exact runParse_error (parseFrame_wrongMagic hlen hmagic)

/-- A parse that succeeds is committed, and empties the buffer (R128, R132). -/
theorem runParse_commits {im : Image} (himg : parseFrame s.ibuf = .image im) (hd : s.l.dst.toNat < s.nslot)
    (hfit : within s.caps.pixcap im.pixels.length = true) :
    runParse s = .next { s.emptyBuffer.succeed with img := s.img.set s.l.dst.toNat im } := by
  rw [runParse_image himg]
  exact State.commit_next.2 ⟨hd, hfit, rfl⟩

/-- Settles O24: the parser passes its three tests, and each pixel's chunk is the 8 bytes the pixel was read from. -/
theorem decodeCommitsImage : Obligations.DecodeCommitsImage := by
  intro s d hr hp hd _ hmagic hlen hfit
  obtain ⟨-, rfl⟩ := State.running_decode.1 hr
  refine ⟨(frameImage s.ibuf).pixels, ?_, frameImage_pixels_length _, fun i p hpixel j hj => ?_⟩
  · rw [exec_decode_parsing hr hp]
    exact runParse_commits (parseFrame_complete hmagic hlen) hd (by rwa [frameImage_pixels_length])
  · obtain ⟨hi, rfl⟩ := frameImage_getElem?_eq_some.1 hpixel
    have hchunk : 16 + 8 * i + 8 ≤ s.ibuf.length :=
      calc 16 + 8 * i + 8 ≤ 16 + 8 * declaredPixels s.ibuf := by omega
        _ ≤ s.ibuf.length := hlen
    rw [toChunk_pixelAt_of_le hchunk, chunkAt, List.getElem?_take_of_lt hj, List.getElem?_drop]

/-- Settles O25: the parser's answer is the same, and the step has no other use for the buffer. -/
theorem trailingBytesIgnored : Obligations.TrailingBytesIgnored := by
  intro s d extra hr hp hlen
  have hsame : parseFrame (s.ibuf ++ extra) = parseFrame s.ibuf := parseFrame_append extra hlen
  rw [exec_decode_parsing hr hp, exec_decode_parsing (s := { s with ibuf := s.ibuf ++ extra }) hr hp]
  cases hparse : parseFrame s.ibuf with
  | error k => rw [runParse_error hparse, runParse_error (hsame.trans hparse)]; rfl
  | image im => rw [runParse_image hparse, runParse_image (hsame.trans hparse)]; rfl

end Sys2Proof.Machine
end

section
/-! PROOFS. A whole DECODE, from its CMD write to its completion (O28): the issue, one step for each DATA token, one for
the EOS and one for the parse. -/

namespace Sys2Proof.Machine

variable {s : State} {d : SlotIdx}

theorem decode_encode (i : Instr) : decode (encode i) = some i :=
  (decodeIffEncode _ _).2 rfl

theorem runSteps_one (s : State) : runSteps 1 s = step s := by
  rw [runSteps]
  cases step s <;> rfl

/-- The step that issues a DECODE, with no turn listed (R38). -/
theorem step_issuesDecode {rest : List HostOp} (hp : s.ph = .idle) (ht : s.turns = []) (hd : d.toNat < s.nslot)
    (hq : s.hostq = .write 0x00 (encode (.decode d)) :: rest) :
    step s = .next (State.issue { s with hostq := rest } (.decode d)).emptyBuffer := by
  rw [(stepRunsWrittenCommand s _ _ rest hq hp (decode_encode _)).2 ht]
  exact execIssuesLegalCommand (.decode d) { s with hostq := rest } hp (decide_eq_true hd)

/-- With no turn listed, a DECODE that is offered a token takes it. -/
theorem step_reading {beat : Beat} {beats : List Beat} (hp : s.ph = .decRead) (ht : s.turns = [])
    (hb : s.beats = beat :: beats) : step s = exec (.decode s.l.dst) s :=
  have hr : s.running = some (.decode s.l.dst) := State.running_decode.2 ⟨.inl hp, rfl⟩
  have he : s.unitEnabled = true := by simp [State.unitEnabled, hp, State.inValid, hb]
  (stepRunsCommandInProgress s _ hr).2 ht he

theorem step_readsData {b : Byte} {beats : List Beat} (hp : s.ph = .decRead) (ht : s.turns = [])
    (hcap : s.caps.ibufcap = none) (hb : s.beats = ⟨0, b⟩ :: beats) :
    step s = .next { s with beats := beats, ibuf := s.ibuf ++ [b] } := by
  rw [step_reading hp ht hb]
  exact (decodeReadsToken s _ b beats (State.running_decode.2 ⟨.inl hp, rfl⟩) hp).1 hb (by rw [hcap]; rfl)

theorem step_readsEos {e : Byte} {beats : List Beat} (hp : s.ph = .decRead) (ht : s.turns = [])
    (hb : s.beats = ⟨1, e⟩ :: beats) : step s = .next { s with beats := beats, ph := .decParse } := by
  rw [step_reading hp ht hb]
  exact (decodeReadsToken s _ e beats (State.running_decode.2 ⟨.inl hp, rfl⟩) hp).2 hb

theorem step_parsing (hp : s.ph = .decParse) (ht : s.turns = []) : step s = runParse s := by
  have hr : s.running = some (.decode s.l.dst) := State.running_decode.2 ⟨.inr hp, rfl⟩
  have he : s.unitEnabled = true := by rw [State.unitEnabled, hp]
  rw [(stepRunsCommandInProgress s _ hr).2 ht he, exec_decode_parsing hr hp]

/-- Reading the DATA tokens at the head of the source appends their bytes to the buffer (R121). -/
theorem runSteps_readsData (bytes : List Byte) {beats : List Beat} {n : Nat} (hp : s.ph = .decRead)
    (ht : s.turns = []) (hcap : s.caps.ibufcap = none) (hb : s.beats = bytes.map (fun b => ⟨0, b⟩) ++ beats) :
    runSteps (bytes.length + n) s = runSteps n { s with beats := beats, ibuf := s.ibuf ++ bytes } := by
  induction bytes generalizing s with
  | nil =>
    have hbeats : s.beats = beats := hb
    rw [List.append_nil, ← hbeats, List.length_nil, Nat.zero_add]
  | cons b bytes ih =>
    calc runSteps ((b :: bytes).length + n) s
        = runSteps (bytes.length + n + 1) s := by rw [List.length_cons, Nat.add_right_comm]
      _ = runSteps (bytes.length + n)
            { s with beats := bytes.map (fun b => ⟨0, b⟩) ++ beats, ibuf := s.ibuf ++ [b] } :=
          runSteps_of_next (step_readsData hp ht hcap hb)
      _ = runSteps n { s with beats := beats, ibuf := s.ibuf ++ [b] ++ bytes } := ih hp ht hcap rfl
      _ = runSteps n { s with beats := beats, ibuf := s.ibuf ++ b :: bytes } := by
          rw [List.append_assoc, List.singleton_append]

/-- A DECODE that has begun to read ends, with no turn listed, in the parse of its whole stream (R120, R121). -/
theorem runSteps_readsStream (bytes : List Byte) {e : Byte} {later : List Beat} (hp : s.ph = .decRead)
    (ht : s.turns = []) (hcap : s.caps.ibufcap = none)
    (hb : s.beats = bytes.map (fun b => ⟨0, b⟩) ++ ⟨1, e⟩ :: later) :
    runSteps (bytes.length + 2) s =
      runParse { s with beats := later, ibuf := s.ibuf ++ bytes, ph := .decParse } := by
  calc runSteps (bytes.length + 2) s
      = runSteps 2 { s with beats := ⟨1, e⟩ :: later, ibuf := s.ibuf ++ bytes } :=
        runSteps_readsData bytes hp ht hcap hb
    _ = runSteps 1 { s with beats := later, ibuf := s.ibuf ++ bytes, ph := .decParse } :=
        runSteps_of_next (step_readsEos hp ht rfl)
    _ = runParse { s with beats := later, ibuf := s.ibuf ++ bytes, ph := .decParse } :=
        (runSteps_one _).trans (step_parsing rfl ht)

/-- The state in which an issued `DECODE d` has read its whole stream, the bytes and the EOS, and is about to parse. -/
def State.streamRead (s : State) (d : SlotIdx) (rest : List HostOp) (later : List Beat) (bytes : List Byte) : State :=
  { State.issue { s with hostq := rest } (.decode d) with beats := later, ibuf := bytes, ph := .decParse }

/-- The whole DECODE up to its parse: the issue empties the buffer, so the parse is of the bytes up to the EOS. -/
theorem runSteps_issueAndRead (bytes : List Byte) {e : Byte} {later : List Beat} {rest : List HostOp}
    (hp : s.ph = .idle) (ht : s.turns = []) (hd : d.toNat < s.nslot) (hcap : s.caps.ibufcap = none)
    (hq : s.hostq = .write 0x00 (encode (.decode d)) :: rest)
    (hb : s.beats = bytes.map (fun b => ⟨0, b⟩) ++ ⟨1, e⟩ :: later) :
    runSteps (bytes.length + 3) s = runParse (s.streamRead d rest later bytes) :=
  calc runSteps (bytes.length + 3) s
      = runSteps (bytes.length + 2) (State.issue { s with hostq := rest } (.decode d)).emptyBuffer :=
        runSteps_of_next (step_issuesDecode hp ht hd hq)
    _ = runParse (s.streamRead d rest later bytes) := runSteps_readsStream bytes rfl ht hcap hb

/-- Settles O28: the run ends in the parse of the whole stream, and the parser's answer is committed or reported. -/
theorem wholeDecodeRun : Obligations.WholeDecodeRun := by
  intro s d bytes e later rest hp ht hd hcaps hq hb
  have hunbounded : ∀ n, within s.caps.pixcap n = true := fun n => by rw [hcaps]; rfl
  rw [runSteps_issueAndRead bytes hp ht hd (congrArg Caps.ibufcap hcaps) hq hb]
  cases hparse : parseFrame bytes with
  | image im =>
    rw [runParse_commits (s := s.streamRead d rest later bytes) hparse hd (hunbounded _), hp]
    rfl
  | error k =>
    rw [runParse_error (s := s.streamRead d rest later bytes) hparse, hp]
    rfl

end Sys2Proof.Machine
end

section
/-! PROOFS. The encode stream (spec/42_codec_encode.md): its byte at every offset (O29), the stream of the empty image
(O34), and the end of an ENCODE at a FAIL (O31). -/

namespace Sys2Proof.Machine

/-! ### The bytes of the stream -/

/-- Element `j` of the middle one of three lists. -/
theorem getElem?_append_middle {α : Type} (xs ys zs : List α) {j : Nat} (hj : j < ys.length) :
    (xs ++ (ys ++ zs))[xs.length + j]? = ys[j]? := by
  rw [List.getElem?_append_right (Nat.le_add_right _ _), Nat.add_sub_cancel_left, List.getElem?_append_left hj]

/-- Bytes 8 to 11 are the width (R144). -/
theorem encStream_getElem?_width (im : Image) {j : Nat} (hj : j < 4) :
    (encStream im)[8 + j]? = (enc32 im.width)[j]? :=
  getElem?_append_middle magic (enc32 im.width) (enc32 im.height ++ im.pixels.flatMap Pixel.toChunk) hj

/-- Bytes 12 to 15 are the height (R144). -/
theorem encStream_getElem?_height (im : Image) {j : Nat} (hj : j < 4) :
    (encStream im)[12 + j]? = (enc32 im.height)[j]? :=
  getElem?_append_middle (magic ++ enc32 im.width) (enc32 im.height) (im.pixels.flatMap Pixel.toChunk) hj

/-- Byte `j` of a chunk is byte `j mod 2` of channel `j div 2` (R86). -/
theorem toChunk_getElem? (p : Pixel) {j : Nat} (hj : j < 8) :
    p.toChunk[j]? =
      (enc16 (if j / 2 = 0 then p.r else if j / 2 = 1 then p.g else if j / 2 = 2 then p.b else p.a))[j % 2]? := by
  match j, hj with
  | 0, _ | 1, _ | 2, _ | 3, _ | 4, _ | 5, _ | 6, _ | 7, _ => rfl

/-- Settles O29: the header field by field, then the chunk each offset falls in. -/
theorem encodeStreamBytes : Obligations.EncodeStreamBytes := by
  intro im
  refine ⟨encStream_length im, rfl, fun k h8 h12 => ?_, fun k h12 h16 => ?_, fun k p h16 hp => ?_⟩
  · obtain ⟨j, rfl⟩ := Nat.exists_eq_add_of_le h8
    rw [encStream_getElem?_width im (by omega), Nat.add_sub_cancel_left]
  · obtain ⟨j, rfl⟩ := Nat.exists_eq_add_of_le h12
    rw [encStream_getElem?_height im (by omega), Nat.add_sub_cancel_left]
  · obtain ⟨j, rfl⟩ := Nat.exists_eq_add_of_le h16
    rw [Nat.add_sub_cancel_left] at hp ⊢
    rw [encStream_getElem?_pixel hp, toChunk_getElem? p (Nat.mod_lt j (by decide))]

/-- Settles O34: the stream is the header alone, and the parser undoes the serializer. -/
theorem emptyImageIsHeader : Obligations.EmptyImageIsHeader :=
  ⟨rfl, parseUndoesSerialize Image.empty rfl⟩

/-! ### ENCODE at a FAIL -/

theorem encStream_getElem?_of_lt {im : Image} {i : Nat} (hi : i < 16 + 8 * im.pixels.length) :
    ∃ b, (encStream im)[i]? = some b :=
  ⟨_, List.getElem?_eq_getElem (by rwa [encStream_length])⟩

/-- Settles O31: there is a byte to offer, and the step that offers it takes the sink's answer. -/
theorem encodeWriteErrorIsIo : Obligations.EncodeWriteErrorIsIo := by
  intro s n im k hr hslot hopos hsink
  obtain ⟨-, rfl⟩ := State.running_encode.1 hr
  obtain ⟨b, hbyte⟩ := encStream_getElem?_of_lt hopos
  refine ⟨Sink.next_taken hsink, ?_⟩
  rw [exec_encode_running hr]
  simp only [writeByte, hslot, hbyte, hsink]
  rfl

end Sys2Proof.Machine
end

section
/-! PROOFS. A whole ENCODE, from its CMD write to its completion (O32) or to the sink's FAIL (O33): the issue, one step
for each byte the sink accepts, and the step that ends the command. -/

namespace Sys2Proof.Machine

/-! ### What the sink answers in a row -/

/-- The answer the sink will give to the byte `j` bytes after the one now offered. -/
def Sink.answer (k : Sink) (j : Nat) : Option Answer := k.answers[j]?.or k.rest

/-- The sink after its next answer. -/
def Sink.answered (k : Sink) : Sink := { k with answers := k.answers.drop 1 }

/-- The sink after it has answered OK to the given bytes. -/
def Sink.accept (k : Sink) (bytes : List Byte) : Sink :=
  { k with answers := k.answers.drop bytes.length, taken := k.taken ++ bytes }

theorem Sink.next_of_answer {k : Sink} {a : Answer} (h : k.answer 0 = some a) : k.next = some (a, k.answered) := by
  rw [Sink.next_eq_some]
  unfold Sink.answer at h
  cases hk : k.answers with
  | nil =>
    rw [hk] at h
    exact .inr ⟨rfl, h, by rw [Sink.answered, hk, List.drop_nil, ← hk]⟩
  | cons b as =>
    rw [hk] at h
    cases h
    exact .inl ⟨as, rfl, by rw [Sink.answered, hk, List.drop_one, List.tail_cons]⟩

theorem Sink.accept_nil (k : Sink) : k.accept [] = k := by
  rw [Sink.accept, List.length_nil, List.drop_zero, List.append_nil]

theorem Sink.accept_append (k : Sink) (xs ys : List Byte) : (k.accept xs).accept ys = k.accept (xs ++ ys) := by
  simp [Sink.accept]

theorem Sink.answer_accept (k : Sink) (bytes : List Byte) (j : Nat) :
    (k.accept bytes).answer j = k.answer (bytes.length + j) :=
  congrArg (Option.or · k.rest) List.getElem?_drop

theorem Sink.answer_of_nil {k : Sink} (h : k.answers = []) (j : Nat) : k.answer j = k.rest := by
  simp [Sink.answer, h]

/-- A sink that holds OK for the next `m` bytes answers OK to each of them. -/
theorem Sink.answer_of_lt {k : Sink} {m j : Nat} {as : List Answer}
    (h : k.answers = List.replicate m .ok ++ as) (hj : j < m) : k.answer j = some .ok := by
  simp [Sink.answer, h, List.getElem?_append_left, hj]

/-- The answer it holds behind them goes to the byte after them. -/
theorem Sink.answer_replicate_length {k : Sink} {m : Nat} {a : Answer} {as : List Answer}
    (h : k.answers = List.replicate m .ok ++ a :: as) : k.answer m = some a := by
  simp [Sink.answer, h]

/-! ### The run -/

theorem State.lt_of_slot {s : State} {n : SlotIdx} {im : Image} (h : s.slot n = some im) : n.toNat < s.nslot :=
  (List.getElem?_eq_some_iff.1 h).1

/-- A run along states that step into one another. -/
theorem runSteps_of_chain {f : Nat → State} {m : Nat} (n : Nat) (h : ∀ i < m, step (f i) = .next (f (i + 1))) :
    runSteps (m + n) (f 0) = runSteps n (f m) := by
  induction m generalizing f with
  | zero => rw [Nat.zero_add]
  | succ m ih =>
    calc runSteps (m + 1 + n) (f 0)
        = runSteps (m + n + 1) (f 0) := by rw [Nat.add_right_comm]
      _ = runSteps (m + n) (f 1) := runSteps_of_next (h 0 m.succ_pos)
      _ = runSteps n (f (m + 1)) := ih (f := fun i => f (i + 1)) fun i hi => h (i + 1) (Nat.succ_lt_succ hi)

/-- The state in which an issued `ENCODE n` of the image `im` has had `i` bytes accepted. -/
def State.bytesSent (s : State) (n : SlotIdx) (rest : List HostOp) (im : Image) (i : Nat) : State :=
  { State.issue { s with hostq := rest } (.encode n) with
    opos := i
    sink := s.sink.start.accept ((encStream im).take i) }

section
variable {s : State} {n : SlotIdx} {im : Image} {rest : List HostOp} {i : Nat}

theorem State.bytesSent_running : (s.bytesSent n rest im i).running = some (.encode n) := rfl

/-- The step that issues an ENCODE, with no turn listed (R38). -/
theorem step_issuesEncode (hp : s.ph = .idle) (ht : s.turns = []) (hslot : s.slot n = some im)
    (hq : s.hostq = .write 0x00 (encode (.encode n)) :: rest) :
    step s = .next (s.bytesSent n rest im 0) := by
  rw [(stepRunsWrittenCommand s _ _ rest hq hp (decode_encode _)).2 ht, State.bytesSent, List.take_zero,
    Sink.accept_nil]
  exact execIssuesLegalCommand (.encode n) { s with hostq := rest } hp (decide_eq_true (State.lt_of_slot hslot))

/-- The sink's next answer, `i` bytes into the stream, is answer `i` of those it began the ENCODE with. -/
theorem State.bytesSent_next {a : Answer} (hi : i < (encStream im).length) (ha : s.sink.start.answer i = some a) :
    (s.bytesSent n rest im i).sink.next = some (a, (s.bytesSent n rest im i).sink.answered) := by
  refine Sink.next_of_answer ?_
  rw [State.bytesSent, Sink.answer_accept, List.length_take_of_le hi.le]
  exact ha

/-- With no turn listed, an ENCODE whose sink answers its byte takes the answer. -/
theorem step_bytesSent {a : Answer} (ht : s.turns = []) (hi : i < (encStream im).length)
    (ha : s.sink.start.answer i = some a) :
    step (s.bytesSent n rest im i) = exec (.encode n) (s.bytesSent n rest im i) := by
  have henabled : (s.bytesSent n rest im i).outReady = true := by
    rw [State.outReady, State.bytesSent_next hi ha]
    rfl
  exact (stepRunsCommandInProgress _ _ State.bytesSent_running).2 ht henabled

theorem State.bytesSent_succ {b : Byte} (hbyte : (encStream im)[i]? = some b) :
    s.bytesSent n rest im (i + 1) =
      { s.bytesSent n rest im i with opos := i + 1, sink := (s.bytesSent n rest im i).sink.accept [b] } := by
  have htake : (encStream im).take (i + 1) = (encStream im).take i ++ [b] := by
    rw [List.take_add_one, hbyte, Option.toList_some]
  rw [State.bytesSent, htake, ← Sink.accept_append]
  rfl

/-- One byte accepted: with more to come the command goes on, and after the last it completes (R42, R65, R140). -/
theorem step_sendsByte (ht : s.turns = []) (hslot : s.slot n = some im) (ha : s.sink.start.answer i = some .ok) :
    (i + 1 < (encStream im).length →
      step (s.bytesSent n rest im i) = .next (s.bytesSent n rest im (i + 1))) ∧
    (i + 1 = (encStream im).length →
      step (s.bytesSent n rest im i) = .next (s.bytesSent n rest im (i + 1)).succeed) := by
  have transfer (hi : i < (encStream im).length) :=
    encodeTransfersByte (s.bytesSent n rest im i) n im _ _ State.bytesSent_running hslot
      (List.getElem?_eq_getElem hi) (State.bytesSent_next hi ha)
  constructor
  · intro hmore
    have hi : i < (encStream im).length := Nat.lt_of_succ_lt hmore
    rw [step_bytesSent ht hi ha, State.bytesSent_succ (List.getElem?_eq_getElem hi)]
    exact (transfer hi).1 (encStream_length im ▸ hmore)
  · intro hlast
    have hi : i < (encStream im).length := hlast ▸ i.lt_succ_self
    rw [step_bytesSent ht hi ha, State.bytesSent_succ (List.getElem?_eq_getElem hi)]
    exact (transfer hi).2 (encStream_length im ▸ hlast)

/-- The issue, and `m` bytes accepted that are not the last. -/
theorem runSteps_issueAndSend {m : Nat} (k : Nat) (hp : s.ph = .idle) (ht : s.turns = []) (hslot : s.slot n = some im)
    (hq : s.hostq = .write 0x00 (encode (.encode n)) :: rest) (hm : m < (encStream im).length)
    (hok : ∀ i < m, s.sink.start.answer i = some .ok) :
    runSteps (m + k + 1) s = runSteps k (s.bytesSent n rest im m) :=
  calc runSteps (m + k + 1) s
      = runSteps (m + k) (s.bytesSent n rest im 0) := runSteps_of_next (step_issuesEncode hp ht hslot hq)
    _ = runSteps k (s.bytesSent n rest im m) :=
        runSteps_of_chain (f := s.bytesSent n rest im) k fun i hi =>
          (step_sendsByte ht hslot (hok i hi)).1 (Nat.lt_of_le_of_lt hi hm)

end

/-- Settles O32: all bytes but the last are accepted, then the last, and the command completes. -/
theorem wholeEncodeRun : Obligations.WholeEncodeRun := by
  intro s n im rest as hp ht hslot hq hplan
  have hok : ∀ i < (encStream im).length, s.sink.start.answer i = some .ok := by
    intro i hi
    rw [encStream_length] at hi
    obtain ⟨hnone, hrest, -⟩ | hplan := hplan
    · exact (Sink.answer_of_nil hnone i).trans hrest
    · exact Sink.answer_of_lt hplan hi
  have hleft : (s.sink.plans.headD []).drop (encStream im).length = as := by
    rw [encStream_length]
    obtain ⟨hnone, -, rfl⟩ | hplan := hplan
    · rw [hnone, List.drop_nil]
    · rw [hplan, List.drop_left' List.length_replicate]
  obtain ⟨m, hm⟩ : ∃ m, m + 1 = (encStream im).length := ⟨15 + 8 * im.pixels.length, by rw [encStream_length]; ring⟩
  have hlt : m < (encStream im).length := hm ▸ m.lt_succ_self
  rw [← encStream_length, ← hm, runSteps_issueAndSend 1 hp ht hslot hq hlt fun i hi => hok i (hi.trans hlt),
    runSteps_one, (step_sendsByte ht hslot (hok m hlt)).2 hm, hm, State.bytesSent, List.take_length, Sink.accept,
    Sink.start_answers, hleft, hp]
  rfl

/-- Settles O33: `k` bytes are accepted, and the next answer is FAIL. -/
theorem wholeEncodeRunFailing : Obligations.WholeEncodeRunFailing := by
  intro s n im rest k as hp ht hslot hq hk hplan
  have hlt : k < (encStream im).length := by rwa [encStream_length]
  have hfail : s.sink.start.answer k = some .fail := Sink.answer_replicate_length hplan
  have hleft : ((s.sink.plans.headD []).drop k).drop 1 = as := by
    rw [hplan, List.drop_left' List.length_replicate]
    rfl
  rw [runSteps_issueAndSend 1 hp ht hslot hq hlt fun i hi => Sink.answer_of_lt hplan hi, runSteps_one,
    step_bytesSent ht hlt hfail,
    (encodeWriteErrorIsIo _ n im _ State.bytesSent_running hslot hk (State.bytesSent_next hlt hfail)).2,
    State.bytesSent, Sink.answered, Sink.accept, Sink.start_answers, List.length_take_of_le hlt.le, hleft, hp]
  rfl

end Sys2Proof.Machine
end

section
/-! PROOFS. The sums and averages of a block (spec/45_arithmetic_units.md, R159, R160): the accumulators hold the
exact sums modulo 2^64, the order of the additions does not matter (O41), and where the sums fit each channel of the
average pixel is the floor average of that channel. -/

namespace Sys2Proof.Machine

/-! ### Channels -/

/-- The four channels of a pixel (R14). -/
def Pixel.IsChannel (c : Pixel → Half) : Prop := c = (·.r) ∨ c = (·.g) ∨ c = (·.b) ∨ c = (·.a)

theorem Pixel.forall_channel {P : (Pixel → Half) → Prop} :
    (∀ c, Pixel.IsChannel c → P c) ↔ P (·.r) ∧ P (·.g) ∧ P (·.b) ∧ P (·.a) := by
  simp only [Pixel.IsChannel, or_imp, forall_and, forall_eq]

theorem Pixel.eq_of_channels {p q : Pixel} (h : ∀ c, Pixel.IsChannel c → (c p).toNat = (c q).toNat) : p = q := by
  obtain ⟨hr, hg, hb, ha⟩ := Pixel.forall_channel.1 h
  cases p
  cases q
  simp only [Pixel.mk.injEq]
  exact ⟨BitVec.eq_of_toNat_eq hr, BitVec.eq_of_toNat_eq hg, BitVec.eq_of_toNat_eq hb, BitVec.eq_of_toNat_eq ha⟩

/-! ### Exact sums -/

theorem exactSum_concat (c : Pixel → Half) (ps : List Pixel) (p : Pixel) :
    exactSum c (ps ++ [p]) = exactSum c ps + (c p).toNat := by
  simp [exactSum]

theorem exactSum_perm {ps qs : List Pixel} (h : ps.Perm qs) (c : Pixel → Half) : exactSum c ps = exactSum c qs :=
  (h.map _).sum_eq

/-- A sum of u16 values is at most as many times 65535 (R170). -/
theorem exactSum_le (c : Pixel → Half) (block : List Pixel) : exactSum c block ≤ block.length * 65535 := by
  have hle : ∀ n ∈ block.map (fun p => (c p).toNat), n ≤ 65535 := by
    intro n hn
    obtain ⟨p, -, rfl⟩ := List.mem_map.1 hn
    exact Nat.le_of_lt_succ (c p).isLt
  simpa [exactSum] using List.sum_le_card_nsmul _ _ hle

theorem sumsFit_iff {block : List Pixel} :
    sumsFit block = true ↔ ∀ c, Pixel.IsChannel c → exactSum c block < 2 ^ 64 := by
  rw [Pixel.forall_channel]
  simp only [sumsFit, Bool.and_eq_true, decide_eq_true_eq, and_assoc]

/-! ### The accumulators -/

/-- One lane of an accumulation step, on a sum modulo 2^64 (R159). -/
theorem ofNat_add_zext (n : Nat) (v : Half) :
    BitVec.ofNat 64 n + v.setWidth 64 = BitVec.ofNat 64 (n + v.toNat) := by
  rw [BitVec.ofNat_add, BitVec.ofNat_toNat]

/-- The accumulators after a block hold its exact sums modulo 2^64 (R186). -/
theorem accumulate_eq (block : List Pixel) :
    accumulate block = ⟨BitVec.ofNat 64 (exactSum (·.r) block), BitVec.ofNat 64 (exactSum (·.g) block),
      BitVec.ofNat 64 (exactSum (·.b) block), BitVec.ofNat 64 (exactSum (·.a) block)⟩ := by
  induction block using List.reverseRecOn with
  | nil => rfl
  | append_singleton ps p ih =>
    have hstep : accumulate (ps ++ [p]) = (accumulate ps).add p := List.foldl_concat ..
    rw [hstep, ih]
    simp only [Accs.add, exactSum_concat, ofNat_add_zext]

/-- Settles O41: accumulators and fit depend on the exact sums only, which a permutation keeps. -/
theorem summationOrderIrrelevant : Obligations.SummationOrderIrrelevant := by
  intro area ps qs h
  simp only [averagePixel, accumulate_eq, sumsFit, exactSum_perm h, and_self]

/-! ### The average -/

/-- DIV64 keeps the whole quotient of a sum of no more than `area` u16 values (R185). -/
theorem div64_toNat {sum area : Dword} (h : sum.toNat ≤ area.toNat * 65535) :
    (div64 sum area).toNat = sum.toNat / area.toNat := by
  have hq : sum.toNat / area.toNat ≤ 65535 := Nat.div_le_of_le_mul h
  rw [div64, BitVec.extractLsb'_toNat, BitVec.toNat_udiv, Nat.shiftRight_zero]
  exact Nat.mod_eq_of_lt (Nat.lt_succ_of_le hq)

/-- A lane of the average whose sum fits is the floor average of the block's channel (R160). -/
theorem averagePixel_toNat {area : Dword} {block : List Pixel} (harea : area.toNat = block.length)
    (hfit : sumsFit block = true) {c : Pixel → Half} (hc : Pixel.IsChannel c) :
    (c (averagePixel area block)).toNat = exactSum c block / block.length := by
  have hsum : (BitVec.ofNat 64 (exactSum c block)).toNat = exactSum c block :=
    Nat.mod_eq_of_lt (sumsFit_iff.1 hfit c hc)
  have hlane : c (averagePixel area block) = div64 (BitVec.ofNat 64 (exactSum c block)) area := by
    rw [averagePixel, accumulate_eq]
    obtain rfl | rfl | rfl | rfl := hc <;> rfl
  rw [hlane, div64_toNat (by rw [hsum, harea]; exact exactSum_le c block), hsum, harea]

end Sys2Proof.Machine
end

section
/-! PROOFS. PIXELIZE (spec/43_downsampler_pixelize.md): the blocks it reads, by output pixel; its completion with the
floor averages (O36) and for every factor up to the bound (O37), its refusal where a sum overflows (O38), and the
images it keeps: a uniform one (O39) and, by factor 1, any (O40). -/

namespace Sys2Proof.Machine

/-! ### The blocks, by output pixel -/

theorem readBlocks_getElem? {im : Image} {f i x y : Nat} {cs : List (Nat × Nat)} {blocks : List (List Pixel)}
    (h : readBlocks im f cs = some blocks) (hi : cs[i]? = some (x, y)) :
    ∃ block, blocks[i]? = some block ∧
      readPixels im.pixels (blockIndices im.width.toNat f x y) = some block := by
  induction cs generalizing i blocks with
  | nil => cases hi
  | cons c cs ih =>
    rw [readBlocks] at h
    split at h
    · next hblock hrest =>
      cases h
      cases i with
      | zero =>
        cases hi
        exact ⟨_, rfl, hblock⟩
      | succ i => simpa only [List.getElem?_cons_succ] using ih hrest hi
    · cases h

variable {im : Image} {f nw nh x y : Nat}

/-- Block `x + y*nw` read is that of output pixel `(x, y)`: `f*f` pixels with the image's own totals (R159, R163). -/
theorem readBlocks_totals (hwf : im.wf) (hw : nw * f = im.width.toNat) (hh : nh * f = im.height.toNat)
    {blocks : List (List Pixel)} (hread : readBlocks im f (outCoords nw nh) = some blocks) (hx : x < nw)
    (hy : y < nh) :
    ∃ block, blocks[x + y * nw]? = some block ∧ block.length = f * f ∧
      ∀ c, exactSum c block = im.blockTotal f c x y := by
  obtain ⟨block, hget, hblock⟩ := readBlocks_getElem? hread (outCoords_getElem? hx hy)
  obtain ⟨_, hblock', hlen, hsum⟩ := readPixels_block hwf hw hh hx hy
  cases hblock.symm.trans hblock'
  exact ⟨block, hget, hlen, hsum⟩

theorem blockTotal_le (hwf : im.wf) (hw : nw * f = im.width.toNat) (hh : nh * f = im.height.toNat) (hx : x < nw)
    (hy : y < nh) (c : Pixel → Half) : im.blockTotal f c x y ≤ f * f * 65535 := by
  obtain ⟨block, -, hlen, hsum⟩ := readPixels_block hwf hw hh hx hy
  rw [← hsum, ← hlen]
  exact exactSum_le c block

/-! ### The average of a block -/

theorem Image.blockFits_iff : im.blockFits f x y ↔ ∀ c, Pixel.IsChannel c → im.blockTotal f c x y < 2 ^ 64 :=
  (Pixel.forall_channel (P := fun c => im.blockTotal f c x y < 2 ^ 64)).symm

/-- `p` is on each channel the floor average of the block of output pixel `(x, y)` (R160). -/
def Image.BlockAverage (im : Image) (f x y : Nat) (p : Pixel) : Prop :=
  ∀ c, Pixel.IsChannel c → (c p).toNat = im.blockTotal f c x y / (f * f)

theorem Image.blockAverage_iff {p : Pixel} :
    im.BlockAverage f x y p ↔
      p.r.toNat = im.blockTotal f (·.r) x y / (f * f) ∧ p.g.toNat = im.blockTotal f (·.g) x y / (f * f) ∧
      p.b.toNat = im.blockTotal f (·.b) x y / (f * f) ∧ p.a.toNat = im.blockTotal f (·.a) x y / (f * f) :=
  Pixel.forall_channel

theorem Image.BlockAverage.unique {p q : Pixel} (hp : im.BlockAverage f x y p) (hq : im.BlockAverage f x y q) :
    p = q :=
  Pixel.eq_of_channels fun c hc => (hp c hc).trans (hq c hc).symm

/-! ### Completion -/

/-- Settles O36: the run commits one average for each block read, of the block's own totals. -/
theorem pixelizeAveragesBlocks : Obligations.PixelizeAveragesBlocks := by
  intro s d n im f nw nh hr hd hslot hwf hf hf0 hw hh hfit hcap
  obtain ⟨-, rfl, rfl⟩ := State.running_pixelize.1 hr
  subst hf
  obtain ⟨blocks, hread, hsums, -⟩ := readBlocks_fit hwf hw hh hfit
  have hlen : (blocks.map (averagePixel (mul64 s.l.a0 s.l.a0))).length = nw * nh := by
    rw [List.length_map, readBlocks_length hread, outCoords_length]
  refine ⟨⟨div32 im.width s.l.a0, div32 im.height s.l.a0, blocks.map (averagePixel (mul64 s.l.a0 s.l.a0))⟩,
    accsAfter s.acc blocks, ?_, div32_toNat_of_mul hf0 hw, div32_toNat_of_mul hf0 hh, hlen, ?_⟩
  · rw [exec_pixelize_running hr, runPixelize_of_fit hslot hf0 hw hh hread hsums]
    exact State.commit_next.2 ⟨hd, by rwa [hlen], rfl⟩
  · intro x y hx hy
    obtain ⟨block, hget, hblock, htotal⟩ := readBlocks_totals hwf hw hh hread hx hy
    have hblockfit : sumsFit block = true := List.all_eq_true.1 hsums block (List.mem_of_getElem? hget)
    refine ⟨averagePixel (mul64 s.l.a0 s.l.a0) block, by rw [List.getElem?_map, hget]; rfl,
      Image.blockAverage_iff.1 fun c hc => ?_⟩
    rw [averagePixel_toNat (by rw [mul64_toNat, hblock]) hblockfit hc, htotal, hblock]

theorem maxBlockSum_iff (f : Nat) : f * f * 65535 ≤ 2 ^ 64 - 1 ↔ f ≤ 16777344 := by
  constructor
  · intro h
    by_contra hf
    have : 16777345 * 16777345 ≤ f * f := Nat.mul_le_mul (Nat.lt_of_not_le hf) (Nat.lt_of_not_le hf)
    omega
  · intro hf
    have : f * f ≤ 16777344 * 16777344 := Nat.mul_le_mul hf hf
    omega

theorem blockFits_of_le_bound (hf : f ≤ 16777344) (hwf : im.wf) (hw : nw * f = im.width.toNat)
    (hh : nh * f = im.height.toNat) (hx : x < nw) (hy : y < nh) : im.blockFits f x y :=
  Image.blockFits_iff.2 fun c _ =>
    ((blockTotal_le hwf hw hh hx hy c).trans ((maxBlockSum_iff f).2 hf)).trans_lt (by decide)

/-- Settles O37: a block of such a factor has no sum above `f*f*65535`, so O36 applies. -/
theorem pixelizeCompletesUpToBound : Obligations.PixelizeCompletesUpToBound := by
  refine ⟨maxBlockSum_iff, fun s d n im hr hd hslot hwf hz hbound hcap hwmod hhmod => ?_⟩
  have hw := Nat.div_mul_cancel (Nat.dvd_of_mod_eq_zero hwmod)
  have hh := Nat.div_mul_cancel (Nat.dvd_of_mod_eq_zero hhmod)
  obtain ⟨out, acc', hexec, -⟩ := pixelizeAveragesBlocks s d n im _ _ _ hr hd hslot hwf rfl
    (fun h => hz (BitVec.eq_of_toNat_eq h)) hw hh (fun _ _ => blockFits_of_le_bound hbound hwf hw hh)
    (by rw [hcap]; rfl)
  exact ⟨out, acc', hexec⟩

/-! ### Overflow -/

theorem runPixelize_of_overflow {s : State} {blocks : List (List Pixel)} (hslot : s.slot s.l.src = some im)
    (hz : s.l.a0 ≠ 0) (hw : mod32 im.width s.l.a0 = 0) (hh : mod32 im.height s.l.a0 = 0)
    (hread : readBlocks im s.l.a0.toNat
      (outCoords (div32 im.width s.l.a0).toNat (div32 im.height s.l.a0).toNat) = some blocks)
    (hover : blocks.all sumsFit = false) : runPixelize s = .refused .blockSumOverflow := by
  simp only [runPixelize, hslot, if_neg hz, hw, hh, hread, hover, ne_eq, not_true_eq_false, or_self, if_false,
    Bool.false_eq_true]

/-- Settles O38: every block is read, and the block whose sum overflows is among them. -/
theorem blockSumOverflowRefused : Obligations.BlockSumOverflowRefused := by
  intro s d n im f nw nh x y channel hr hslot hwf hf hf0 hw hh hx hy hchannel hover
  obtain ⟨-, rfl, rfl⟩ := State.running_pixelize.1 hr
  subst hf
  have hwmod := mod32_eq_zero_of_mul hw
  have hhmod := mod32_eq_zero_of_mul hh
  obtain ⟨blocks, hread⟩ := readBlocks_of_divisible hwf hwmod hhmod
  have hunfit : ¬ blocks.all sumsFit = true := by
    intro hall
    rw [div32_toNat_of_mul hf0 hw, div32_toNat_of_mul hf0 hh] at hread
    obtain ⟨block, hget, -, htotal⟩ := readBlocks_totals hwf hw hh hread hx hy
    have hfit := sumsFit_iff.1 (List.all_eq_true.1 hall block (List.mem_of_getElem? hget)) channel hchannel
    exact absurd hover (Nat.not_le.2 (htotal channel ▸ hfit))
  rw [exec_pixelize_running hr]
  exact runPixelize_of_overflow hslot (fun h => hf0 (congrArg BitVec.toNat h)) hwmod hhmod hread
    (Bool.eq_false_iff.2 hunfit)

/-! ### Images kept -/

/-- Two well-formed images of the same dimensions are equal when their pixels are, coordinate by coordinate (R24,
R72). -/
theorem Image.ext_of_coords {im out : Image} (him : im.wf) (hout : out.wf) (hw : out.width = im.width)
    (hh : out.height = im.height)
    (h : ∀ x y, x < im.width.toNat → y < im.height.toNat →
      out.pixels[x + y * im.width.toNat]? = im.pixels[x + y * im.width.toNat]?) : out = im := by
  obtain ⟨w, ht, px⟩ := im
  obtain ⟨w', ht', px'⟩ := out
  obtain rfl : w' = w := hw
  obtain rfl : ht' = ht := hh
  have hlen : px'.length = px.length := hout.trans him.symm
  have hpx : px' = px := by
    refine List.ext_getElem? fun i => ?_
    by_cases hi : i < px.length
    · rw [show px.length = _ from him] at hi
      have hpos : 0 < w'.toNat := Nat.pos_of_mul_pos_right (Nat.zero_lt_of_lt hi)
      have hy : i / w'.toNat < ht'.toNat := Nat.div_lt_of_lt_mul hi
      simpa [Nat.mod_add_div'] using h (i % w'.toNat) (i / w'.toNat) (Nat.mod_lt _ hpos) hy
    · rw [List.getElem?_eq_none (by omega), List.getElem?_eq_none (by omega)]
  rw [hpx]

/-- A PIXELIZE whose sums fit commits the one image that holds the floor average of every block (R160, R163). -/
theorem exec_pixelize_of_averages {s : State} {d n : SlotIdx} {out : Image} (hr : s.running = some (.pixelize d n))
    (hd : d.toNat < s.nslot) (hslot : s.slot n = some im) (hwf : im.wf) (hf : f = s.l.a0.toNat) (hf0 : f ≠ 0)
    (hw : out.width.toNat * f = im.width.toNat) (hh : out.height.toNat * f = im.height.toNat)
    (hfit : ∀ x y, x < out.width.toNat → y < out.height.toNat → im.blockFits f x y) (hout : out.wf)
    (havg : ∀ x y, x < out.width.toNat → y < out.height.toNat →
      ∃ p, out.pixels[x + y * out.width.toNat]? = some p ∧ im.BlockAverage f x y p)
    (hcap : within s.caps.pixcap out.pixels.length = true) :
    ∃ acc' : Accs, exec (.pixelize d n) s = .next { s with
      img := s.img.set d.toNat out
      acc := acc'
      ph := .idle
      status := { s.status with done := true } } := by
  obtain ⟨out', acc', hexec, hw', hh', hlen, havg'⟩ := pixelizeAveragesBlocks s d n im f _ _ hr hd hslot hwf hf hf0
    hw hh hfit (by rwa [hout] at hcap)
  have hout' : out' = out := by
    refine Image.ext_of_coords hout (by rw [Image.wf, hlen, hw', hh']) (BitVec.eq_of_toNat_eq hw')
      (BitVec.eq_of_toNat_eq hh') fun x y hx hy => ?_
    obtain ⟨p, hget, hp⟩ := havg x y hx hy
    obtain ⟨p', hget', hp'⟩ := havg' x y hx hy
    rw [hget, hget', (Image.blockAverage_iff.2 hp').unique hp]
  exact ⟨acc', hout' ▸ hexec⟩

/-- A quotient of a word by a nonzero divisor is a word. -/
theorem ofNat_toNat_of_mul {a : Word} {q : Nat} (hf0 : f ≠ 0) (h : q * f = a.toNat) :
    (BitVec.ofNat 32 q).toNat = q := by
  have hle : q ≤ a.toNat := h ▸ Nat.le_mul_of_pos_right q (Nat.pos_of_ne_zero hf0)
  exact Nat.mod_eq_of_lt (hle.trans_lt a.isLt)

theorem outIndex_lt (hx : x < nw) (hy : y < nh) : x + y * nw < nw * nh :=
  outCoords_length nw nh ▸ (List.getElem?_eq_some_iff.1 (outCoords_getElem? hx hy)).1

/-- Settles O39: each average is `f*f*v / (f*f) = v`. -/
theorem uniformImagePreserved : Obligations.UniformImagePreserved := by
  intro s d n w h p f nw nh hr hd hslot hf hf0 hw hh hfr hfg hfb hfa hcap
  have htotal (x y) (hx : x < nw) (hy : y < nh) (c) := blockTotal_replicate (p := p) c hw hh hx hy
  have hnw := ofNat_toNat_of_mul hf0 hw
  have hnh := ofNat_toNat_of_mul hf0 hh
  refine exec_pixelize_of_averages (out := ⟨BitVec.ofNat 32 nw, BitVec.ofNat 32 nh, List.replicate (nw * nh) p⟩)
    hr hd hslot List.length_replicate hf hf0 (hnw.symm ▸ hw) (hnh.symm ▸ hh) ?_ ?_ ?_
    (by rwa [List.length_replicate])
  · intro x y hx hy
    simp only [Image.blockFits, htotal x y (hnw ▸ hx) (hnh ▸ hy)]
    exact ⟨hfr, hfg, hfb, hfa⟩
  · rw [Image.wf, hnw, hnh, List.length_replicate]
  · simp only [hnw, hnh]
    intro x y hx hy
    refine ⟨p, List.getElem?_replicate_of_lt (outIndex_lt hx hy), fun c _ => ?_⟩
    rw [htotal x y hx hy, Nat.mul_div_cancel_left _ (Nat.pos_of_ne_zero (Nat.mul_ne_zero hf0 hf0))]

/-- A block of factor 1 is the one pixel at its coordinates (R169). -/
theorem blockTotal_one (c : Pixel → Half) (x y : Nat) :
    im.blockTotal 1 c x y = im.channelAt c (x + y * im.width.toNat) := by
  simp [Image.blockTotal]

/-- Settles O40: the source is its own image of averages. -/
theorem factorOneCopies : Obligations.FactorOneCopies := by
  intro s d n im hr hd hslot hwf hf hcap
  have hw := Nat.mul_one im.width.toNat
  have hh := Nat.mul_one im.height.toNat
  refine exec_pixelize_of_averages hr hd hslot hwf (f := 1) (by rw [hf]; rfl) Nat.one_ne_zero hw hh
    (fun x y hx hy => blockFits_of_le_bound (by decide) hwf hw hh hx hy) hwf (fun x y hx hy => ?_) hcap
  have hi : x + y * im.width.toNat < im.pixels.length := hwf ▸ outIndex_lt hx hy
  refine ⟨im.pixels[x + y * im.width.toNat], List.getElem?_eq_getElem hi, fun c _ => ?_⟩
  rw [blockTotal_one, Image.channelAt, List.getElem?_eq_getElem hi, Nat.div_one]
  rfl

end Sys2Proof.Machine
end

section
/-! PROOFS. The arithmetic units (spec/45_arithmetic_units.md): MUL64 is exact (O42), the dividers give the floor
quotient and the remainder (O43), and the accumulators are exact where the sums fit (O44). -/

namespace Sys2Proof.Machine

/-- Settles O42: two factors below 2^32 have a product below 2^64; the corners are computed. -/
theorem productExact : Obligations.ProductExact :=
  ⟨mul64_toNat, by decide, by decide⟩

/-! ### The dividers -/

theorem div32_toNat (a b : Word) : (div32 a b).toNat = a.toNat / b.toNat :=
  BitVec.toNat_udiv

theorem mod32_toNat (a b : Word) : (mod32 a b).toNat = a.toNat % b.toNat :=
  BitVec.toNat_umod

/-- Settles O43: both dividers are the division of the naturals, DIV64 because its quotient fits in the 16 bits
kept. -/
theorem dividersFloor : Obligations.DividersFloor := by
  refine ⟨fun a b hb => ?_, fun sum area harea hle => ?_⟩
  · rw [div32_toNat, mod32_toNat]
    exact ⟨(Nat.div_add_mod' _ _).symm, Nat.mod_lt _ (BitVec.toNat_pos_of_ne_zero hb)⟩
  · rw [div64_toNat hle]
    exact ⟨Nat.div_mul_le_self _ _, Nat.lt_mul_of_div_lt (Nat.lt_succ_self _) (BitVec.toNat_pos_of_ne_zero harea)⟩

/-! ### The accumulators -/

/-- A channel's exact sum over a block whose sums fit is a u64 (R186). -/
theorem ofNat_exactSum_toNat {block : List Pixel} (hfit : sumsFit block = true) {c : Pixel → Half}
    (hc : Pixel.IsChannel c) : (BitVec.ofNat 64 (exactSum c block)).toNat = exactSum c block :=
  Nat.mod_eq_of_lt (sumsFit_iff.1 hfit c hc)

/-- Settles O44: the accumulators hold the exact sums modulo 2^64, and each of these sums is below 2^64. -/
theorem accumulatorsExact : Obligations.AccumulatorsExact := by
  intro block hfit
  rw [accumulate_eq]
  exact Pixel.forall_channel.1 fun _ hc => ofNat_exactSum_toNat hfit hc

end Sys2Proof.Machine
end

section
/-! PROOFS. The exceptions (spec/60_exceptions.md): the two error kinds that name a mismatch of sizes (O23, O35), the
two reports of a CMD write (O7, O8), and that no report comes with a change of a slot (O55). -/

namespace Sys2Proof.Machine

variable {s t : State}

/-! ### MismatchedLength -/

/-- A buffer with its header right and fewer complete chunks than it declares pixels (R204). -/
theorem parseFrame_fewChunks {buf : List Byte} (hlen : 16 ≤ buf.length) (hmagic : buf.take 8 = magic)
    (hfew : (buf.length - 16) / 8 < declaredPixels buf) : parseFrame buf = .error .mismatchedLength := by
  simp only [parseFrame, mul64_toNat]
  rw [if_neg (Nat.not_lt.2 hlen), if_neg (not_not.2 hmagic)]
  exact if_pos hfew

/-- No other buffer: one that fails an earlier test has another kind, and one with enough chunks an image (R131,
R204). -/
theorem parseFrame_mismatchedLength_iff (buf : List Byte) :
    parseFrame buf = .error .mismatchedLength ↔
      16 ≤ buf.length ∧ buf.take 8 = magic ∧ (buf.length - 16) / 8 < declaredPixels buf := by
  refine ⟨fun h => ?_, fun ⟨hlen, hmagic, hfew⟩ => parseFrame_fewChunks hlen hmagic hfew⟩
  by_cases hlen : 16 ≤ buf.length
  · by_cases hmagic : buf.take 8 = magic
    · by_cases hfew : (buf.length - 16) / 8 < declaredPixels buf
      · exact ⟨hlen, hmagic, hfew⟩
      · rw [parseFrame_complete hmagic (by omega)] at h
        cases h
    · rw [parseFrame_wrongMagic hlen hmagic] at h
      cases h
  · rw [parseFrame_short (Nat.lt_of_not_le hlen)] at h
    cases h

/-- Settles O23: the parser's third test, which only a buffer that has passed the other two comes to. -/
theorem decodeMismatchedLength : Obligations.DecodeMismatchedLength := by
  refine ⟨fun s d hr hp hlen hmagic hfew => ?_, parseFrame_mismatchedLength_iff⟩
  rw [exec_decode_parsing hr hp]
  exact runParse_error (parseFrame_fewChunks hlen hmagic hfew)

/-! ### NonExactMultiple -/

theorem mod32_ne_zero_iff (a b : Word) : mod32 a b ≠ 0 ↔ a.toNat % b.toNat ≠ 0 := by
  rw [← mod32_toNat, ne_eq, ← BitVec.toNat_inj]
  rfl

/-- Factor 0 and the two remainders end a PIXELIZE in one report (R156, R157). -/
theorem runPixelize_nonExact {im : Image} (hslot : s.slot s.l.src = some im)
    (hbad : s.l.a0 = 0 ∨ mod32 im.width s.l.a0 ≠ 0 ∨ mod32 im.height s.l.a0 ≠ 0) :
    runPixelize s = .next (s.fail .nonExactMultiple) := by
  simp only [runPixelize, hslot]
  by_cases hz : s.l.a0 = 0
  · exact if_pos hz
  · rw [if_neg hz, if_pos (hbad.resolve_left hz)]

/-- Settles O35: the remainders of the words are those of the naturals. -/
theorem pixelizeNonExactMultiple : Obligations.PixelizeNonExactMultiple := by
  intro s d n im hr hslot hbad
  obtain ⟨-, rfl, rfl⟩ := State.running_pixelize.1 hr
  rw [exec_pixelize_running hr]
  rw [← mod32_ne_zero_iff, ← mod32_ne_zero_iff] at hbad
  exact runPixelize_nonExact hslot hbad

/-! ### No report changes a slot -/

/-- A commit leaves ERR as the issue cleared it, so the slots change in no move that ends with ERR set (R209, R210). -/
theorem UnitMove.img_of_err (m : UnitMove s t) (hclear : s.status.err = false) (herr : t.status.err = true) :
    t.img = s.img := by
  have commitClear : s.status.err ≠ true := by simp [hclear]
  cases m with
  | committedNew | committedDecode | committedPixelize => exact absurd herr commitClear
  | _ => rfl

/-- Settles O55: the invariant has ERR clear in a busy unit, and only the unit's own moves change a slot. -/
theorem errorChangesNoSlot : Obligations.ErrorChangesNoSlot := by
  intro s t h hn hstep herr
  obtain ⟨-, rfl⟩ | m | m := step_next_of_notReset hn hstep
  · rfl
  · obtain ⟨-, hclear, -⟩ := h.busyClear m.ph_ne_idle
    exact m.img_of_err hclear herr
  · exact m.img

/-! ### A word written to CMD -/

/-- Settles O7: the word is dropped. -/
theorem busyCmdWriteDropped : Obligations.BusyCmdWriteDropped :=
  fun _ _ _ _ ht hq hp => step_writeCmd_busy ht hq hp

theorem legal_eq_false_of_decodeLegal {n : Nat} {w : Word} {i : Instr} (h : decodeLegal n w = none)
    (hd : decode w = some i) : i.legal n = false :=
  Bool.eq_false_of_not_eq_true (Option.filter_eq_none_iff.1 h i hd)

/-- An idle unit reports a word that is not legal, whether it selects no row or its command is not legal, and its phase
stays as it is (R88, R206). -/
theorem writeCmd_illegal {w : Word} (hp : s.ph = .idle) (hl : decodeLegal s.nslot w = none) :
    writeCmd w s = .next { s with status := s.status.failed .illegalCommand } := by
  rw [← State.fail_idle hp]
  cases hd : decode w with
  | none => exact writeCmd_reserved hp hd
  | some i => rw [writeCmd_decoded hp hd, exec_idle_illegal hp (legal_eq_false_of_decodeLegal hl hd)]

/-- Settles O8: the host's step is the CMD write of the word. -/
theorem illegalWordReported : Obligations.IllegalWordReported := by
  intro s w rest ts ht hq hp hl
  rw [step_writeCmd ht hq]
  exact writeCmd_illegal hp hl

end Sys2Proof.Machine
end

section
/-! PROOFS. The hazards of spec/70_reset_and_hazards.md: what a truncated encode stream decodes to (O27), and that
nothing but its partner or a reset moves a stalled DECODE or ENCODE (O58). -/

namespace Sys2Proof.Machine

/-! ### Truncated output -/

/-- A header's worth of an encode stream declares the pixels of the whole (R144). -/
theorem declaredPixels_take_encStream {im : Image} {k : Nat} (hwf : im.wf) (hk : 16 ≤ k) :
    declaredPixels ((encStream im).take k) = im.pixels.length := by
  have hlen : 16 ≤ ((encStream im).take k).length := by rw [List.length_take, encStream_length]; omega
  rw [← declaredPixels_append ((encStream im).drop k) hlen, List.take_append_drop, declaredPixels_encStream hwf]

theorem take_encStream_magic {im : Image} {k : Nat} (hk : 8 ≤ k) : ((encStream im).take k).take 8 = magic := by
  rw [List.take_take, Nat.min_eq_left hk]
  rfl

/-- Settles O27: a cut stream with the header whole has the magic, and lacks the last chunk its header declares. -/
theorem truncatedStreamRejected : Obligations.TruncatedStreamRejected := by
  intro im k hwf hk
  have hlen : ((encStream im).take k).length = k := by rw [List.length_take, encStream_length]; omega
  by_cases hshort : k < 16
  · rw [if_pos hshort]
    exact parseFrame_short (by omega)
  · have hfew : (((encStream im).take k).length - 16) / 8 < declaredPixels ((encStream im).take k) := by
      rw [hlen, declaredPixels_take_encStream hwf (by omega)]
      omega
    rw [if_neg hshort]
    exact parseFrame_fewChunks (by omega) (take_encStream_magic (by omega)) hfew

/-! ### No timeout -/

variable {s t u : State}

/-- A DECODE whose source has no closing token left, or an ENCODE with a byte left whose sink takes none; and no reset
to come (R238). -/
def State.Stalled (s : State) : Prop :=
  Turn.reset ∉ s.turns ∧
  ((s.ph = .decRead ∧ ∀ b ∈ s.beats, b.kind = 0) ∨
   (s.ph = .encWrite ∧ s.sink.next = none ∧ ∃ im, s.slot s.l.src = some im ∧ s.opos < 16 + 8 * im.pixels.length))

/-- The command in progress has come no further from `s` to `t`, but for bytes buffered. The last three fields say that
the agents have offered nothing new. -/
structure State.Waits (s t : State) : Prop where
  ph : t.ph = s.ph
  done : t.status.done = s.status.done
  l : t.l = s.l
  img : t.img = s.img
  opos : t.opos = s.opos
  ibuf : s.ibuf <+: t.ibuf
  beats : t.beats <:+ s.beats
  sink : t.sink = s.sink
  turns : t.turns <:+ s.turns

theorem State.Waits.refl (s : State) : s.Waits s :=
  ⟨rfl, rfl, rfl, rfl, rfl, List.prefix_rfl, List.suffix_rfl, rfl, List.suffix_rfl⟩

theorem State.Waits.trans (h : s.Waits t) (h' : t.Waits u) : s.Waits u where
  ph := h'.ph.trans h.ph
  done := h'.done.trans h.done
  l := h'.l.trans h.l
  img := h'.img.trans h.img
  opos := h'.opos.trans h.opos
  ibuf := h.ibuf.trans h'.ibuf
  beats := h'.beats.trans h.beats
  sink := h'.sink.trans h.sink
  turns := h'.turns.trans h.turns

theorem State.Waits.turnTaken (s : State) : s.Waits s.turnTaken :=
  { State.Waits.refl s with turns := List.tail_suffix s.turns }

theorem State.Stalled.of_waits (h : s.Stalled) (w : s.Waits t) : t.Stalled := by
  obtain ⟨hreset, hstalled⟩ := h
  refine ⟨fun hmem => hreset (w.turns.mem hmem), ?_⟩
  rw [State.slot, w.ph, w.sink, w.l, w.img, w.opos]
  exact hstalled.imp_left fun ⟨hp, hdata⟩ => ⟨hp, fun b hb => hdata b (w.beats.mem hb)⟩

theorem State.Stalled.ph_ne_idle (h : s.Stalled) : s.ph ≠ .idle := by
  obtain ⟨-, ⟨hp, -⟩ | ⟨hp, -⟩⟩ := h <;> simp [hp]

theorem State.Stalled.notReset (h : s.Stalled) : s.notReset :=
  fun _ ht => h.1 (ht ▸ List.mem_cons_self)

theorem Beat.token_of_data {beat : Beat} (h : beat.kind = 0) : beat.token = some (.data beat.data) :=
  if_pos h

/-- In DEC_READ with DATA tokens only, the unit waits or buffers a byte (R120). -/
theorem UnitMove.waits_of_decRead (m : UnitMove s t) (hp : s.ph = .decRead) (hdata : ∀ b ∈ s.beats, b.kind = 0) :
    s.Waits t := by
  have headData : ∀ {beat rest}, s.beats = beat :: rest → beat.token = some (.data beat.data) :=
    fun hbeats => Beat.token_of_data (hdata _ (hbeats ▸ List.mem_cons_self))
  cases m with
  | awaitToken => exact .refl s
  | data b beat rest _ hbeats =>
    exact { State.Waits.refl s with
      ibuf := List.prefix_append s.ibuf [b]
      beats := hbeats ▸ List.suffix_cons beat rest }
  | eos _ _ _ hbeats htoken | readError _ _ _ hbeats htoken => simp [headData hbeats] at htoken
  | _ => simp_all -- the moves of the other phases

/-- In ENC_WRITE with a byte to offer that the sink does not take, the unit waits (R140). -/
theorem UnitMove.eq_of_encWrite {im : Image} (m : UnitMove s t) (hp : s.ph = .encWrite) (hsink : s.sink.next = none)
    (hslot : s.slot s.l.src = some im) (hopos : s.opos < 16 + 8 * im.pixels.length) : t = s := by
  obtain ⟨b, hbyte⟩ := encStream_getElem?_of_lt hopos
  cases m with
  | awaitSink => rfl
  | sent _ _ _ _ _ _ hnext | sentLast _ _ _ _ _ _ hnext | sinkError _ _ _ _ _ _ hnext => simp [hsink] at hnext
  | nothingLeft im' _ hslot' hnone =>
    obtain rfl : im = im' := Option.some.inj (hslot.symm.trans hslot')
    simp [hbyte] at hnone
  | _ => simp_all -- the moves of the other phases

theorem UnitMove.waits (m : UnitMove s t) (h : s.Stalled) : s.Waits t := by
  obtain ⟨-, ⟨hp, hdata⟩ | ⟨hp, hsink, im, hslot, hopos⟩⟩ := h
  · exact m.waits_of_decRead hp hdata
  · rw [m.eq_of_encWrite hp hsink hslot hopos]
    exact .refl s

/-- Whatever the host does while a command is in progress, the command waits: a word written to CMD is dropped
(R31 (a)). -/
theorem HostMove.waits (m : HostMove s t) (hp : s.ph ≠ .idle) : s.Waits t := by
  cases m with
  | nothing => exact .refl s
  | command w rest _ _ m =>
    rw [m.eq_drop_of_busy hp]
    exact { State.Waits.refl s with }
  | access => exact { State.Waits.refl s with }

theorem step_waits (h : s.Stalled) (hstep : step s = .next t) : s.Waits t := by
  have taken : s.Waits s.turnTaken := .turnTaken s
  have hstalled : s.turnTaken.Stalled := h.of_waits taken
  obtain ⟨hidle, -⟩ | m | m := step_next_of_notReset h.notReset hstep
  · exact absurd hidle h.ph_ne_idle
  · exact taken.trans (m.waits hstalled)
  · exact taken.trans (m.waits hstalled.ph_ne_idle)

theorem runSteps_waits {n : Nat} (h : s.Stalled) (hrun : runSteps n s = .next t) : s.Waits t := by
  induction n generalizing s with
  | zero => cases hrun; exact .refl _
  | succ n ih =>
    obtain ⟨m, hstep, hrest⟩ := runSteps_next_cons hrun
    have first : s.Waits m := step_waits h hstep
    exact first.trans (ih (h.of_waits first) hrest)

/-- Settles O58: every step of a stalled unit waits, and leaves it stalled. -/
theorem noTimeout : Obligations.NoTimeout := by
  intro n s t hreset hstalled hrun
  have w : s.Waits t := runSteps_waits ⟨hreset, hstalled⟩ hrun
  obtain ⟨got, hgot⟩ := w.ibuf
  exact ⟨w.ph, w.done, w.l, w.img, w.opos, got, hgot.symm⟩

end Sys2Proof.Machine
end

section
/-! PROOFS. The command-word table of spec/95_test_vectors.md, section 2.1 (O2): a word of the table is the word of a
command, legal or not by the command's slots, or the word of no command. -/

namespace Sys2Proof.Machine

variable {n : Nat}

/-- The word of a legal command is legal and is that command (R83, R88). -/
theorem decodeLegal_encode (i : Instr) (hl : i.legal n = true) : decodeLegal n (encode i) = some i :=
  Option.filter_eq_some_iff.2 ⟨decode_encode i, hl⟩

/-- The word of a command that names a missing slot, or one slot twice, is not legal (R88 (d), (e)). -/
theorem decodeLegal_encode_eq_none (i : Instr) (hl : i.legal n = false) : decodeLegal n (encode i) = none := by
  rw [decodeLegal, decode_encode, Option.filter_some, hl]
  rfl

/-- A word that selects no row is not legal, however many slots there are (R88 (a) to (c)). -/
theorem decodeLegal_eq_none_of_decode {w : Word} (hd : decode w = none) : decodeLegal n w = none := by
  rw [decodeLegal, hd, Option.filter_none]

/-- Settles O2: a word illegal by its slots is still the word of a command; every other illegal word selects no row of
R83, for an unused field, its operation code or a reserved bit. -/
theorem commandWordTable : Obligations.CommandWordTable :=
  ⟨decodeLegal_encode (.new 0) rfl,
    decodeLegal_encode (.new 1) rfl,
    decodeLegal_encode_eq_none (.new 2) rfl,
    decodeLegal_eq_none_of_decode rfl, -- NEW with SRC 1
    decodeLegal_encode (.decode 0) rfl,
    decodeLegal_encode (.decode 1) rfl,
    decodeLegal_encode (.encode 0) rfl,
    decodeLegal_encode (.encode 1) rfl,
    decodeLegal_eq_none_of_decode rfl, -- ENCODE with DST 1
    decodeLegal_encode (.pixelize 1 0) rfl,
    decodeLegal_encode (.pixelize 0 1) rfl,
    decodeLegal_encode_eq_none (.pixelize 0 0) rfl,
    decodeLegal_encode_eq_none (.pixelize 1 1) rfl,
    decodeLegal_encode_eq_none (.pixelize 1 2) rfl,
    decodeLegal_eq_none_of_decode rfl, -- operation code 0
    decodeLegal_eq_none_of_decode rfl, -- operation code 5
    decodeLegal_eq_none_of_decode rfl, -- operation code 0xFF
    decodeLegal_eq_none_of_decode (decode_eq_none_of_reserved (by decide)), -- bit 16
    decodeLegal_eq_none_of_decode (decode_eq_none_of_reserved (by decide))⟩ -- bit 31

end Sys2Proof.Machine
end
